-- ==== Sys2Proof/Word.lean ====
section
/-! DEFINITION. The bit-vector types of the machine: what the spec calls a nibble, a byte and an instruction word
(00_scope.md R6, R8). The field extractions and the byte order stand in Decode.lean. -/

namespace Sys2Proof

/-- A register value, the high or low byte of an instruction, or a character code: 8 bits, unsigned (R6, R8). -/
abbrev Byte := BitVec 8

/-- Half of a byte: one hexadecimal digit, or one operand field (R6 `FIELD_W`, R8). -/
abbrev Nibble := BitVec 4

/-- An instruction word `iw`, 16 bits: `iw[15:8]` the high byte, `iw[7:0]` the low byte (R6 `ILEN`, R8). -/
abbrev Word := BitVec 16

end Sys2Proof
end

