-- ==== Sys2Proof/Config.lean ====
section
/-! DEFINITION. The sizes the spec fixes and the parameters it leaves open (00_scope.md R6, R7).

Where the parameters of R7 live:
- `STREAM`, `STREAM_LEN`: launch inputs, the fields `stream` and `streamLen` of State;
- `CURSOR_W`: open, any sufficient width; the cursor is a natural number (decision D2, assumption 3);
- `CHAR_W` = 8: a character is a `Byte` (decision D1, assumption 4);
- `IMMCMP_BIAS` = 1: `immCmpBias` in Decode.lean (decision D6, assumption 5);
- `STRICT_HI_MATCH` = true: the whole-byte comparisons of `decode` (decision D5, assumption 6);
- `LOAD_OOR_POLICY` = no-op: `decode` gives NOP (decision D4, assumption 7);
- `FLAG_WRITE_PRIORITY` = flag write wins: `State.writeBack` (decision D7, assumption 8).

The spec leaves no value free (93_implementation_defined.md section 1: "nothing is a draw"), so there is no opaque
constant here. -/

namespace Sys2Proof.Config

/-- `IDIGITS`: characters per instruction, "exactly 4 hexadecimal digits" (R6). -/
abbrev idigits : Nat := 4

/-- `NREG`: number of general registers (R6). -/
abbrev nreg : Nat := 3

end Sys2Proof.Config
end

