-- ==== Sys2Proof/Syntax.lean ====
section
/-! DEFINITION. The twelve instructions, one constructor per row of opcode_table.json (30_encoding.md R64), and the
three register names (10_state.md R20). A register operand is one of three names, so that no index above 2 can reach
the register file (10_state.md R21, 41_execute_sequencing.md R107). -/

namespace Sys2Proof

/-- The general registers `reg[0]`, `reg[1]`, `reg[2]`, written `r0`, `r1`, `r2` (10_state.md R20). -/
inductive Reg where
  | r0
  | r1
  | r2
  deriving DecidableEq, Repr

/-- The instruction set (30_encoding.md R64). HALT keeps its ignored low byte and NOP the whole word that no other row
takes, so that the words and the well-formed instructions correspond one to one (assumption 17). -/
inductive Instr where
  /-- HALT, format Z, with the low byte that is ignored (R115, R69). -/
  | halt (lo : Byte)
  /-- LOAD rk, imm, format KI (R116). -/
  | load (k : Reg) (imm : Byte)
  /-- ADD rx, ry, format XY (R125). -/
  | add (x y : Reg)
  /-- SUB rx, ry, format XY (R126). -/
  | sub (x y : Reg)
  /-- OR rx, ry, format XY (R135). -/
  | or (x y : Reg)
  /-- AND rx, ry, format XY (R136). -/
  | and (x y : Reg)
  /-- XOR rx, ry, format XY (R137). -/
  | xor (x y : Reg)
  /-- SEI rk, imm, SKIP-IF-EQUAL immediate, format KI (R145). -/
  | sei (k : Reg) (imm : Byte)
  /-- SNEI rk, imm, SKIP-IF-NOT-EQUAL immediate, format KI (R146). -/
  | snei (k : Reg) (imm : Byte)
  /-- SER rx, ry, SKIP-IF-EQUAL registers, format XY (R147). -/
  | ser (x y : Reg)
  /-- SNER rx, ry, SKIP-IF-NOT-EQUAL registers, format XY (R148). -/
  | sner (x y : Reg)
  /-- NOP, format N, with the word that selects it (R160). -/
  | nop (w : Word)
  deriving DecidableEq, Repr

end Sys2Proof
end

