-- ==== Sys2Proof/Decode.lean ====
section
/-! DEFINITION. From text to instruction and back: the hex parser (40_fetch_unit.md R82 to R85), the fields of the
instruction word (00_scope.md R8), the decoder (30_encoding.md R64, 41_execute_sequencing.md R103), the encoder and the
assembly notation (30_encoding.md R70), and the rows of opcode_table.json as match and mask (30_encoding.md R65). -/

namespace Sys2Proof

/-! ### Fields of the instruction word (R8) -/

/-- `hi = iw[15:8]`. -/
def hiByte (w : Word) : Byte := w.extractLsb' 8 8

/-- `lo = imm = iw[7:0]`. -/
def loByte (w : Word) : Byte := w.extractLsb' 0 8

/-- `op = iw[15:12]`. -/
def opField (w : Word) : Nibble := w.extractLsb' 12 4

/-- `k4 = iw[11:8]`. -/
def k4Field (w : Word) : Nibble := w.extractLsb' 8 4

/-- `x = iw[7:4]`. -/
def xField (w : Word) : Nibble := w.extractLsb' 4 4

/-- `y = iw[3:0]`. -/
def yField (w : Word) : Nibble := w.extractLsb' 0 4

/-- `hi ++ lo`, the high byte in the more significant bits (R8, R43). -/
def packBytes (hi lo : Byte) : Word := hi ++ lo

/-- `a ++ b`, the first nibble in the more significant bits (R8, R44). -/
def packNibbles (a b : Nibble) : Byte := a ++ b

/-! ### Register indices -/

/-- The register an index field names: only 0, 1 and 2 name one (41_execute_sequencing.md R106, R107). -/
def regOfNibble (n : Nibble) : Option Reg :=
  if n = 0 then some .r0 else if n = 1 then some .r1 else if n = 2 then some .r2 else none

/-- The index field that names a register. -/
def regNibble : Reg → Nibble
  | .r0 => 0
  | .r1 => 1
  | .r2 => 2

/-- `IMMCMP_BIAS`: the register of SEI and SNEI is `k4 - 1` (R63; 90_conflicts.md C1, decision D6; assumption 5,
DESIGN CHOICE of the spec). With 0 here the patterns move down by one, the losing reading (a) of C1. -/
def immCmpBias : Nibble := 1

/-! ### The hex parser (40_fetch_unit.md section 2) -/

/-- `ishex(c)`: one of the sixteen digits `0`..`9`, `A`..`F` (R82; ASCII codes, K1, assumption 4). -/
def isHex (c : Byte) : Bool :=
  (decide (0x30 ≤ c.toNat) && decide (c.toNat ≤ 0x39)) || (decide (0x41 ≤ c.toNat) && decide (c.toNat ≤ 0x46))

/-- `hexval(c)`, meaningful where `isHex c` (R83; K2, assumption 4). -/
def hexVal (c : Byte) : Nibble :=
  if c.toNat ≤ 0x39 then BitVec.ofNat 4 (c.toNat - 0x30) else BitVec.ofNat 4 (c.toNat - 0x37)

/-- The character that spells a digit, upper case (R72, R83). -/
def hexDigit (n : Nibble) : Byte :=
  if n.toNat ≤ 9 then BitVec.ofNat 8 (0x30 + n.toNat) else BitVec.ofNat 8 (0x37 + n.toNat)

/-- Why a group is malformed; fetch answers Unavailable to both (R85, R89). -/
inductive Malformed where
  /-- fewer than 4 characters remain -/
  | tooFewCharacters
  /-- a character among the next 4 is no upper-case hexadecimal digit -/
  | notHexDigit
  deriving DecidableEq, Repr

/-- The word four digits spell, most significant digit first (R44, R61, R81; decision D16, assumption 13). -/
def wordOfDigits (c0 c1 c2 c3 : Byte) : Word :=
  packBytes (packNibbles (hexVal c0) (hexVal c1)) (packNibbles (hexVal c2) (hexVal c3))

/-- The hex parser and validator on the text that remains: one group taken off the front (R81, R84, R85). -/
def parseGroup : List Byte → Except Malformed (Word × List Byte)
  | c0 :: c1 :: c2 :: c3 :: rest =>
    if isHex c0 && isHex c1 && isHex c2 && isHex c3 then .ok (wordOfDigits c0 c1 c2 c3, rest)
    else .error .notHexDigit
  | _ => .error .tooFewCharacters

/-- The four digits of a word, most significant first (R61, R72). -/
def hexText (w : Word) : List Byte :=
  [hexDigit (opField w), hexDigit (k4Field w), hexDigit (xField w), hexDigit (yField w)]

/-! ### The decoder -/

/-- A word of format XY: the operation if both fields name a register, else NOP (R106). -/
def decodeXY (op : Reg → Reg → Instr) (w : Word) : Instr :=
  match regOfNibble (xField w), regOfNibble (yField w) with
  | some x, some y => op x y
  | _, _ => .nop w

/-- A word of format KI whose selector is `k`: the operation if `k` names a register, else NOP (R107, R117). -/
def decodeKI (op : Reg → Byte → Instr) (k : Nibble) (w : Word) : Instr :=
  match regOfNibble k with
  | some r => op r (loByte w)
  | none => .nop w

/-- Decode: total on all 65536 words, a function of the word alone (R64, R73, R103). The whole high byte must equal a
listed value (R66; decision D5, assumption 6); LOAD above register 2 is NOP (R117; decision D4, assumption 7). -/
def decode (w : Word) : Instr :=
  if hiByte w = 0x00 then .halt (loByte w)
  else if opField w = 0x1 then decodeKI .load (k4Field w) w
  else if hiByte w = 0x20 then decodeXY .add w
  else if hiByte w = 0x30 then decodeXY .sub w
  else if hiByte w = 0x40 then decodeXY .or w
  else if hiByte w = 0x50 then decodeXY .and w
  else if hiByte w = 0x60 then decodeXY .xor w
  else if opField w = 0x7 then decodeKI .sei (k4Field w - immCmpBias) w
  else if opField w = 0x8 then decodeKI .snei (k4Field w - immCmpBias) w
  else if hiByte w = 0x90 then decodeXY .ser w
  else if hiByte w = 0xA0 then decodeXY .sner w
  else .nop w

/-- The decoder on stream text: the instruction of the group at the front and the text behind it, or the name of what
is wrong with the group. No other rejection exists: every word decodes (R68, R84). -/
def decodeText (text : List Byte) : Except Malformed (Instr × List Byte) :=
  match parseGroup text with
  | .ok (w, rest) => .ok (decode w, rest)
  | .error e => .error e

/-! ### The encoder (R70) -/

/-- A word of format XY with high byte `hi` (R62). -/
def encodeXY (hi : Byte) (x y : Reg) : Word := packBytes hi (packNibbles (regNibble x) (regNibble y))

/-- A word of format KI with top nibble `op` and selector `k` (R62). -/
def encodeKI (op k : Nibble) (imm : Byte) : Word := packBytes (packNibbles op k) imm

/-- The word of an instruction (R70); HALT and NOP give back the bits they carry. -/
def encode : Instr → Word
  | .halt lo => packBytes 0x00 lo
  | .load k imm => encodeKI 0x1 (regNibble k) imm
  | .add x y => encodeXY 0x20 x y
  | .sub x y => encodeXY 0x30 x y
  | .or x y => encodeXY 0x40 x y
  | .and x y => encodeXY 0x50 x y
  | .xor x y => encodeXY 0x60 x y
  | .sei k imm => encodeKI 0x7 (regNibble k + immCmpBias) imm
  | .snei k imm => encodeKI 0x8 (regNibble k + immCmpBias) imm
  | .ser x y => encodeXY 0x90 x y
  | .sner x y => encodeXY 0xA0 x y
  | .nop w => w

/-- The text of an instruction as it stands in the stream (R72). -/
def encodeText (i : Instr) : List Byte := hexText (encode i)

/-! ### The rows of opcode_table.json as match and mask (R65) -/

/-- HALT: `0x0000 / 0xFF00`. -/
def haltRow (w : Word) : Bool := w &&& 0xFF00 == 0x0000

/-- LOAD: `0x1000 / 0xFC00`, with `iw[9:8]` not 3. -/
def loadRow (w : Word) : Bool := w &&& 0xFC00 == 0x1000 && w.extractLsb' 8 2 != 3

/-- An XY operation: `pattern / 0xFFCC`, with `iw[5:4]` and `iw[1:0]` not 3. -/
def xyRow (pattern : Word) (w : Word) : Bool :=
  w &&& 0xFFCC == pattern && w.extractLsb' 4 2 != 3 && w.extractLsb' 0 2 != 3

/-- SEI and SNEI: `pattern / 0xFC00`, with `iw[9:8]` not 0. -/
def immCmpRow (pattern : Word) (w : Word) : Bool := w &&& 0xFC00 == pattern && w.extractLsb' 8 2 != 0

/-- The rows of the eleven effective operations, in the table's order. -/
def effectiveRows : List (Word → Bool) :=
  [haltRow, loadRow, xyRow 0x2000, xyRow 0x3000, xyRow 0x4000, xyRow 0x5000, xyRow 0x6000, immCmpRow 0x7000,
   immCmpRow 0x8000, xyRow 0x9000, xyRow 0xA000]

/-- NOP: every word that no other row selects (R65, R160). -/
def nopRow (w : Word) : Bool := !(effectiveRows.any fun row => row w)

/-- The table's row of an instruction's mnemonic. -/
def rowOf : Instr → Word → Bool
  | .halt _ => haltRow
  | .load _ _ => loadRow
  | .add _ _ => xyRow 0x2000
  | .sub _ _ => xyRow 0x3000
  | .or _ _ => xyRow 0x4000
  | .and _ _ => xyRow 0x5000
  | .xor _ _ => xyRow 0x6000
  | .sei _ _ => immCmpRow 0x7000
  | .snei _ _ => immCmpRow 0x8000
  | .ser _ _ => xyRow 0x9000
  | .sner _ _ => xyRow 0xA000
  | .nop _ => nopRow

/-! ### The host's numbering of a table word -/

/-- The word whose bits the host gives as a number: the first 16 of its `nbits` bits, all above zero. The table's words
are 16 bits, one word an instruction, bit 0 the least significant (R8, R60). -/
def tableWord (nbits w : Nat) : Word := BitVec.ofNat 16 (w % 2 ^ nbits)

/-- The instruction the decoder reads from a table word, laid out as the stream stores it: four digits. -/
def decodeTableWord (nbits w : Nat) : Option Instr :=
  match decodeText (hexText (tableWord nbits w)) with
  | .ok (i, _) => some i
  | .error _ => none

/-! ### Assembly notation (R70) -/

/-- The notation's name of a register. -/
def regName : Reg → String
  | .r0 => "r0"
  | .r1 => "r1"
  | .r2 => "r2"

/-- A digit as a character of the notation. -/
def digitChar (n : Nibble) : Char := Char.ofNat (hexDigit n).toNat

/-- `.word 0xnnnn`, for a word without a canonical spelling. -/
def wordNotation (w : Word) : String :=
  ".word 0x" ++ String.ofList [digitChar (opField w), digitChar (k4Field w), digitChar (xField w), digitChar (yField w)]

/-- `OP rx, ry`. -/
def xyNotation (name : String) (x y : Reg) : String := name ++ " " ++ regName x ++ ", " ++ regName y

/-- `OP rk, imm`, the immediate in decimal. -/
def kiNotation (name : String) (k : Reg) (imm : Byte) : String :=
  name ++ " " ++ regName k ++ ", " ++ toString imm.toNat

/-- The assembly notation of an instruction, destination first; `0000` is the canonical HALT and `FFFF` the canonical
NOP, any other word of those two is written `.word` (R70; decision D12). -/
def asm : Instr → String
  | .halt lo => if lo = 0 then "HALT" else wordNotation (packBytes 0x00 lo)
  | .load k imm => kiNotation "LOAD" k imm
  | .add x y => xyNotation "ADD" x y
  | .sub x y => xyNotation "SUB" x y
  | .or x y => xyNotation "OR" x y
  | .and x y => xyNotation "AND" x y
  | .xor x y => xyNotation "XOR" x y
  | .sei k imm => kiNotation "SEI" k imm
  | .snei k imm => kiNotation "SNEI" k imm
  | .ser x y => xyNotation "SER" x y
  | .sner x y => xyNotation "SNER" x y
  | .nop w => if w = 0xFFFF then "NOP" else wordNotation w

end Sys2Proof
end

