-- ==== Sys2Proof/Machine/State.lean ====
section
/-! DEFINITION. The machine state: the record of 10_state.md R36 with STREAM beside it (R30), the reasons a step can
stop, and the state after reset (R33, 70_reset_and_hazards.md R210). Plain data. -/

namespace Sys2Proof.Machine

/-- The run state of the sequencer (10_state.md R31, 50_interfaces.md R179). -/
inductive RunState where
  /-- `RUN`: steps are taken -/
  | running
  /-- `HALTED`: an execute returned Halt; final -/
  | halted
  /-- `EXHAUSTED`: a fetch returned Unavailable; final -/
  | exhausted
  deriving DecidableEq, Repr

/-- The characters of the stream by position, in one canonical form: positions strictly rising, no entry equal to what
an unlisted position reads as (`Memory.unlisted`, Machine/Ops.lean). -/
abbrev Memory := List Host.Cell

/-- Everything the spec gives the machine (10_state.md R36, R30). -/
structure State where
  /-- `reg[0]` (R20) -/
  reg0 : Byte
  /-- `reg[1]` (R20) -/
  reg1 : Byte
  /-- `reg[2]`, also the carry or borrow of ADD and SUB (R20, R22) -/
  reg2 : Byte
  /-- the Pending-Skip flag (R29) -/
  skip : Bool
  /-- the read cursor, the program counter, in characters from 0 (R25) -/
  cursor : Nat
  /-- the run state (R31) -/
  run : RunState
  /-- STREAM, by position (R30) -/
  stream : Memory
  /-- `L`, the length of STREAM in characters (R7, R30) -/
  streamLen : Nat
  deriving DecidableEq, Repr

/-- Why a step has no next state. The hardware raises no exception (60_exceptions.md R190); these name the two final
states, which "have no successor. They are final states, not faults" (93_implementation_defined.md U5). -/
inductive Fault where
  /-- Raised by `step` alone, when `run = HALTED`: no step exists (R177, R179). Safe: nothing is claimed to happen. -/
  | haltedHasNoStep
  /-- Raised by `step` alone, when `run = EXHAUSTED`: no step exists (R177, R179). Safe: nothing is claimed to happen. -/
  | exhaustedHasNoStep
  deriving DecidableEq, Repr

/-- Reasons to give an instruction no meaning. -/
inductive Refusal where
  /-- Raised by `exec` for an instruction without a meaning. No arm raises it: every instruction has its meaning. Safe. -/
  | notModelled (mnemonic : String)
  deriving DecidableEq, Repr

/-- The machine right after reset (10_state.md R33; 70_reset_and_hazards.md R210): registers, flag and cursor 0, `RUN`.
STREAM is a launch input that reset does not touch (R30, R212); here nothing is listed and `L` is 0, an empty stream
(assumption 2, DESIGN CHOICE). -/
def State.reset : State where
  reg0 := 0
  reg1 := 0
  reg2 := 0
  skip := false
  cursor := 0
  run := .running
  stream := []
  streamLen := 0

end Sys2Proof.Machine
end

