-- ==== Sys2Proof/Machine/Flags.lean ====
section
/-! DEFINITION. The arithmetic of ADD and SUB and the one flag computation each has: exact on the integers, then
narrowed (43_arithmetic.md R125, R126, R129). The hardware has no other flag computation (10_state.md R29). -/

namespace Sys2Proof.Machine

/-- `zext_9(a) + zext_9(b)`: the exact sum, 0..510, in 9 bits (R125). -/
def exactSum (a b : Byte) : BitVec 9 := a.setWidth 9 + b.setWidth 9

/-- `s[7:0]` (R125). -/
def sumByte (a b : Byte) : Byte := (exactSum a b).extractLsb' 0 8

/-- `s[8]`: the carry out of bit 7 (R125). -/
def sumCarry (a b : Byte) : Bool := (exactSum a b).getLsbD 8

/-- `a - b`: the exact integer difference, -255..255 (R126). -/
def exactDiff (a b : Byte) : Int := (a.toNat : Int) - (b.toNat : Int)

/-- `d mod 256` (R126). -/
def diffByte (a b : Byte) : Byte := BitVec.ofInt 8 (exactDiff a b)

/-- The borrow: 1 iff `d < 0`, not the inverted carry (R126). -/
def diffBorrow (a b : Byte) : Bool := decide (exactDiff a b < 0)

/-- `0000000 ++ wf_data`: the byte a flag write stores in `reg[2]` (50_interfaces.md R173). -/
def flagByte (flag : Bool) : Byte := if flag then 1 else 0

end Sys2Proof.Machine
end

