-- ==== Sys2Proof/Machine/Operands.lean ====
section
/-! DEFINITION. The operand forms: a register by name, and the two registers of format XY read together before any
write (10_state.md R21, 50_interfaces.md R173). An immediate is a byte used as it is (30_encoding.md R63). -/

namespace Sys2Proof.Machine

/-- `reg[r]` (10_state.md R20). -/
def State.getReg (s : State) : Reg → Byte
  | .r0 => s.reg0
  | .r1 => s.reg1
  | .r2 => s.reg2

/-- The two read ports: `reg[x]` and `reg[y]`, as they were before this operation's writes (R21, R173). -/
def State.readPair (s : State) (x y : Reg) : Byte × Byte := (s.getReg x, s.getReg y)

end Sys2Proof.Machine
end

