-- ==== Sys2Proof/Machine/Ops.lean ====
section
/-! DEFINITION. The shared operations: the stream memory (20_memory.md), the register file's write ports
(50_interfaces.md R173), the Pending-Skip flag (10_state.md R29), the run state (R31), fetch (40_fetch_unit.md R81),
reset and the host's load of a stream (70_reset_and_hazards.md R210 to R213).

There is no operation that takes an exception and none that returns from one: the hardware raises none, saves nothing
and has no handler (60_exceptions.md R190, R195, R196). -/

namespace Sys2Proof.Machine

/-! ### The stream memory -/

/-- What an unlisted position reads as: the character with code 0, which is no digit (R82). DESIGN CHOICE, assumption 1:
a compact writing of a stream, whose every position below `L` holds a character the host supplies. -/
def Memory.unlisted : Byte := 0

/-- The character at a position. -/
def Memory.read : Memory → Nat → Byte
  | [], _ => Memory.unlisted
  | (a, b) :: rest, p => if p = a then b else Memory.read rest p

/-- The character at a position replaced, in canonical form. Used by the host before a run only: "`MemWrite` does not
exist" for the machine (20_memory.md R42). -/
def Memory.write : Memory → Nat → Byte → Memory
  | [], p, v => if v = Memory.unlisted then [] else [(p, v)]
  | (a, b) :: rest, p, v =>
    if p < a then (if v = Memory.unlisted then (a, b) :: rest else (p, v) :: (a, b) :: rest)
    else if p = a then (if v = Memory.unlisted then rest else (p, v) :: rest)
    else (a, b) :: Memory.write rest p v

/-- The canonical form from a position on. -/
def Memory.wfFrom : Nat → Memory → Bool
  | _, [] => true
  | lo, (a, b) :: rest => decide (lo ≤ a) && b != Memory.unlisted && Memory.wfFrom (a + 1) rest

/-- The canonical form: positions strictly rising, no entry equal to what an unlisted position reads as. -/
def Memory.wf (m : Memory) : Bool := Memory.wfFrom 0 m

/-- `MemRead(pos, n)`: the `n` characters from `pos` on, in that order, without side effect (00_scope.md R9). -/
def Memory.readChars (m : Memory) (pos : Nat) : Nat → List Byte
  | 0 => []
  | n + 1 => Memory.read m pos :: Memory.readChars m (pos + 1) n

/-- Characters written one after the other from a position on. -/
def Memory.writeChars (m : Memory) (pos : Nat) : List Byte → Memory
  | [] => m
  | c :: cs => Memory.writeChars (Memory.write m pos c) (pos + 1) cs

/-- The cells of a text whose first character stands at `pos`. -/
def Memory.cellsFrom (pos : Nat) : List Byte → Memory
  | [] => []
  | c :: cs =>
    if c = Memory.unlisted then Memory.cellsFrom (pos + 1) cs else (pos, c) :: Memory.cellsFrom (pos + 1) cs

/-- A text as a stream: its characters at positions 0, 1, 2, ... (10_state.md R30). -/
def Memory.ofText (text : List Byte) : Memory := Memory.cellsFrom 0 text

/-! ### Registers, flag, cursor, run state -/

/-- `reg[r] <- v` (00_scope.md R9). -/
def State.setReg (s : State) (r : Reg) (v : Byte) : State :=
  { s with reg0 := if r = .r0 then v else s.reg0
           reg1 := if r = .r1 then v else s.reg1
           reg2 := if r = .r2 then v else s.reg2 }

/-- `skip <- b` (00_scope.md R9). -/
def State.setSkip (s : State) (b : Bool) : State := { s with skip := b }

/-- `cursor <- n` (00_scope.md R9). -/
def State.setCursor (s : State) (n : Nat) : State := { s with cursor := n }

/-- `run <- r` (50_interfaces.md R177). -/
def State.setRun (s : State) (r : RunState) : State := { s with run := r }

/-- The host's supply of STREAM and `L` (50_interfaces.md R174, R181). -/
def State.setStream (s : State) (m : Memory) (len : Nat) : State := { s with stream := m, streamLen := len }

/-- The write ports of the register file: the destination write, then the flag write to `reg[2]`, which wins when both
address it (50_interfaces.md R173, 43_arithmetic.md R127; decision D7, assumption 8). -/
def State.writeBack (s : State) (x : Reg) (v : Byte) (flag : Bool) : State :=
  (s.setReg x v).setReg .r2 (flagByte flag)

/-- `if condition then skip <- 1`, and the flag left alone otherwise (45_skip.md R149). -/
def State.skipIf (s : State) (condition : Bool) : State := if condition then s.setSkip true else s

/-- What execute's result Halt does to the run: `run <- HALTED` (50_interfaces.md R177; assumption 10). -/
def State.halt (s : State) : State := s.setRun .halted

/-- A skipped instruction: the flag is cleared and nothing else happens (41_execute_sequencing.md R101). -/
def State.consumeSkip (s : State) : State := s.setSkip false

/-! ### Fetch -/

/-- Fetch: the instruction word at the cursor and the state with the cursor advanced, or Unavailable with nothing
consumed (40_fetch_unit.md R80, R81). The length is tested first (20_memory.md R48; assumption 18). -/
def State.fetch (s : State) : Option (Word × State) :=
  if s.cursor + Config.idigits ≤ s.streamLen then
    match parseGroup (Memory.readChars s.stream s.cursor Config.idigits) with
    | .ok (w, _) => some (w, s.setCursor (s.cursor + Config.idigits))
    | .error _ => none
  else none

/-- What an Unavailable fetch does to the run: `run <- EXHAUSTED`, nothing else (50_interfaces.md R177). -/
def State.exhaust (s : State) : State := s.setRun .exhausted

/-! ### Reset and launch -/

/-- Reset at any time: every piece of state at its reset value, STREAM and `L` untouched (70_reset_and_hazards.md R210,
R212; decision D13, assumption 15). -/
def State.applyReset (s : State) : State := State.reset.setStream s.stream s.streamLen

/-- The host provides a stream (50_interfaces.md R181). -/
def State.loadStream (s : State) (text : List Byte) : State := s.setStream (Memory.ofText text) text.length

/-- The start of a run of a stream: the stream provided and reset applied (50_interfaces.md R178, R181). -/
def State.launch (text : List Byte) : State := (State.reset.loadStream text).applyReset

/-- The text of one instruction written where the next fetch looks, the stream made long enough to hold it, no skip
pending and the run not over, so that the next step runs it (assumption 2). -/
def State.placeText (s : State) (text : List Byte) : State :=
  ((s.setStream (Memory.writeChars s.stream s.cursor text) (max s.streamLen (s.cursor + text.length))).setSkip false).setRun
    .running

end Sys2Proof.Machine
end

