-- ==== Sys2Proof/Machine/Arithmetic.lean ====
section
/-! DEFINITION. ADD and SUB (43_arithmetic.md): both sources read, then the destination write, then the flag write. -/

namespace Sys2Proof.Machine

/-- The common shape of ADD and SUB: result and flag from the two sources (R125, R126, R127). -/
def arithXY (result : Byte → Byte → Byte) (flag : Byte → Byte → Bool) (x y : Reg) (s : State) : State :=
  let (a, b) := s.readPair x y
  s.writeBack x (result a b) (flag a b)

/-- ADD rx, ry: `reg[x] <- s[7:0]`, `reg[2] <- s[8]` (R125). -/
def execAdd (x y : Reg) (s : State) : Host.Outcome State Fault Refusal := .next (arithXY sumByte sumCarry x y s)

/-- SUB rx, ry: `reg[x] <- d mod 256`, `reg[2] <-` borrow (R126). -/
def execSub (x y : Reg) (s : State) : Host.Outcome State Fault Refusal := .next (arithXY diffByte diffBorrow x y s)

end Sys2Proof.Machine
end

