-- ==== Sys2Proof/Machine/HaltLoad.lean ====
section
/-! DEFINITION. HALT and LOAD (42_halt_load.md). -/

namespace Sys2Proof.Machine

/-- HALT: execute returns Halt, the low byte is ignored, nothing else changes (R115). -/
def execHalt (_lo : Byte) (s : State) : Host.Outcome State Fault Refusal := .next s.halt

/-- LOAD rk, imm: `reg[k] <- imm` (R116). -/
def execLoad (k : Reg) (imm : Byte) (s : State) : Host.Outcome State Fault Refusal := .next (s.setReg k imm)

end Sys2Proof.Machine
end

