-- ==== Sys2Proof/Machine/Logic.lean ====
section
/-! DEFINITION. OR, AND, XOR (44_logic.md): one register write, no flag (R138). -/

namespace Sys2Proof.Machine

/-- The common shape of the logic instructions: `reg[x] <- f reg[x] reg[y]` (R135 to R137). -/
def logicXY (f : Byte → Byte → Byte) (x y : Reg) (s : State) : State :=
  let (a, b) := s.readPair x y
  s.setReg x (f a b)

/-- OR rx, ry (R135). -/
def execOr (x y : Reg) (s : State) : Host.Outcome State Fault Refusal := .next (logicXY (fun a b => a ||| b) x y s)

/-- AND rx, ry (R136). -/
def execAnd (x y : Reg) (s : State) : Host.Outcome State Fault Refusal := .next (logicXY (fun a b => a &&& b) x y s)

/-- XOR rx, ry (R137). -/
def execXor (x y : Reg) (s : State) : Host.Outcome State Fault Refusal := .next (logicXY (fun a b => a ^^^ b) x y s)

end Sys2Proof.Machine
end

