-- ==== Sys2Proof/Machine/Nop.lean ====
section
/-! DEFINITION. NOP and every encoding that does nothing (46_nop.md). -/

namespace Sys2Proof.Machine

/-- NOP: no effect, whatever the word that selects it (R160, R162). -/
def execNop (_w : Word) (s : State) : Host.Outcome State Fault Refusal := .next s

end Sys2Proof.Machine
end

