-- ==== Sys2Proof/Machine/Skip.lean ====
section
/-! DEFINITION. SEI, SNEI, SER, SNER (45_skip.md): the Pending-Skip flag set if the condition holds, no register
written, the flag never cleared (R149). -/

namespace Sys2Proof.Machine

/-- SEI rk, imm: `if reg[k] = imm then skip <- 1` (R145). -/
def execSei (k : Reg) (imm : Byte) (s : State) : Host.Outcome State Fault Refusal := .next (s.skipIf (s.getReg k == imm))

/-- SNEI rk, imm: `if reg[k] != imm then skip <- 1` (R146). -/
def execSnei (k : Reg) (imm : Byte) (s : State) : Host.Outcome State Fault Refusal :=
  .next (s.skipIf (s.getReg k != imm))

/-- SER rx, ry: `if reg[x] = reg[y] then skip <- 1` (R147). -/
def execSer (x y : Reg) (s : State) : Host.Outcome State Fault Refusal :=
  let (a, b) := s.readPair x y
  .next (s.skipIf (a == b))

/-- SNER rx, ry: `if reg[x] != reg[y] then skip <- 1` (R148). -/
def execSner (x y : Reg) (s : State) : Host.Outcome State Fault Refusal :=
  let (a, b) := s.readPair x y
  .next (s.skipIf (a != b))

end Sys2Proof.Machine
end

