-- ==== Sys2Proof/Machine/Dispatch.lean ====
section
/-! DEFINITION. Dispatch: one arm per instruction (41_execute_sequencing.md R103). It is the engine's `dispatch`, called
with no skip pending; the skip check around it is `execute` (Machine/Sequencer.lean, R101). -/

namespace Sys2Proof.Machine

def exec (i : Instr) (s : State) : Host.Outcome State Fault Refusal :=
  match i with
  | .halt lo => Sys2Proof.Machine.execHalt lo s
  | .load k imm => Sys2Proof.Machine.execLoad k imm s
  | .add x y => Sys2Proof.Machine.execAdd x y s
  | .sub x y => Sys2Proof.Machine.execSub x y s
  | .or x y => Sys2Proof.Machine.execOr x y s
  | .and x y => Sys2Proof.Machine.execAnd x y s
  | .xor x y => Sys2Proof.Machine.execXor x y s
  | .sei k imm => Sys2Proof.Machine.execSei k imm s
  | .snei k imm => Sys2Proof.Machine.execSnei k imm s
  | .ser x y => Sys2Proof.Machine.execSer x y s
  | .sner x y => Sys2Proof.Machine.execSner x y s
  | .nop w => Sys2Proof.Machine.execNop w s

end Sys2Proof.Machine
end

