-- ==== Sys2Proof/Machine/Sequencer.lean ====
section
/-! DEFINITION. The execute operation with the skip check before any decode (41_execute_sequencing.md R101), and one
fetch followed by one execute (50_interfaces.md R177). -/

namespace Sys2Proof.Machine

/-- `execute(hi, lo)`: a pending skip is consumed and the word is not looked at; otherwise the word is decoded and
dispatched (R101, R103). The result Halt is `run = HALTED` in the state answered (assumption 10). -/
def execute (w : Word) (s : State) : Host.Outcome State Fault Refusal :=
  if s.skip then .next s.consumeSkip else exec (decode w) s

/-- The body of the step in `RUN`: Unavailable ends the run; an instruction is executed after the cursor has advanced
(R177; the order of checks is 60_exceptions.md R194). -/
def fetchExecute (s : State) : Host.Outcome State Fault Refusal :=
  match s.fetch with
  | none => .next s.exhaust
  | some (w, s') => execute w s'

/-- The text placed where the next fetch looks: the word the host numbers, as four digits. -/
def placeTableWord (s : State) (nbits w : Nat) : State := s.placeText (hexText (tableWord nbits w))

end Sys2Proof.Machine
end

