-- ==== Sys2Proof/Machine/Step.lean ====
section
/-! DEFINITION. The step (50_interfaces.md R177): it exists only when `run = RUN`; the two final states have no
successor (R179, 93_implementation_defined.md U5; assumption 9). -/

namespace Sys2Proof.Machine

/-- One step: one fetch and, if it returned an instruction, one execute (R177). -/
def step (s : State) : Host.Outcome State Fault Refusal :=
  match s.run with
  | .running => fetchExecute s
  | .halted => .fault .haltedHasNoStep
  | .exhausted => .fault .exhaustedHasNoStep

/-- The host's placing of one table word where `step` fetches next (assumption 2). -/
def State.withFetchWord (s : State) (nbits w : Nat) : State := placeTableWord s nbits w

end Sys2Proof.Machine
end

