-- ==== Sys2Proof/Machine/Run.lean ====
section
/-! DEFINITION. The run of a program and its result (50_interfaces.md R178 to R180). -/

namespace Sys2Proof.Machine

/-- The result of a program: the three registers in order, or nothing (R178). -/
inductive Result where
  /-- `Report(a, b, c)`: after an executed HALT -/
  | report (a b c : Byte)
  /-- `NoOutput`: after an Unavailable fetch -/
  | noOutput
  deriving DecidableEq, Repr

/-- What the host sees at the end of a run; none while the run goes on (R175, R178). -/
def State.result (s : State) : Option Result :=
  match s.run with
  | .running => none
  | .halted => some (.report s.reg0 s.reg1 s.reg2)
  | .exhausted => some .noOutput

/-- `n` steps, each of which must have a next state (R177): `Host.Core.run` of this machine, said in its own types. -/
def takeSteps : Nat → State → Host.Outcome State Fault Refusal
  | 0, s => .next s
  | n + 1, s =>
    match step s with
    | .next t => takeSteps n t
    | .fault f => .fault f
    | .refused r => .refused r

/-- `while run = RUN: step()`, at most `n` times (R178). -/
def runSteps : Nat → State → State
  | 0, s => s
  | n + 1, s =>
    match s.run, step s with
    | .running, .next t => runSteps n t
    | _, _ => s

/-- The bound on the steps of a run: `floor(L / 4) + 1` (R180). -/
def stepBound (len : Nat) : Nat := len / Config.idigits + 1

/-- `run_program(STREAM)`: the result of a run of a stream from reset (R178). -/
def runProgram (text : List Byte) : Option Result := (runSteps (stepBound text.length) (State.launch text)).result

end Sys2Proof.Machine
end

