-- ==== Sys2Proof/Machine/Ports.lean ====
section
/-! DEFINITION. The outputs of CORE and of its blocks at transaction level (50_interfaces.md R171 to R175; decision D10).
They are views of the state and of the two operations; no rule of behaviour depends on them. The inputs of those tables
are the arguments: `fetch_req` and `exec_req` are the calls of `State.fetch` and `execute`, `reset` is
`State.applyReset`, STREAM and `L` are fields of the state, and the write ports of the register file are
`State.setReg` and `State.writeBack`. -/

namespace Sys2Proof.Machine

/-- The outputs of `instruction_fetch_unit` (R171). `hi` and `lo` hold no value where the spec calls them not
meaningful: the spec says nothing of the lines then, and writing that as an absent value is the model's choice (DESIGN
CHOICE, assumption 20). `cursor` is the cursor before the fetch these outputs belong to (DESIGN CHOICE, assumption 23). -/
structure FetchPorts where
  streamPos : List Nat
  fetchValid : Bool
  hi : Option Byte
  lo : Option Byte
  cursor : Nat
  deriving DecidableEq, Repr

/-- The outputs of `execute_dispatch_engine` (R172). -/
structure EnginePorts where
  halt : Bool
  skip : Bool
  deriving DecidableEq, Repr

/-- The outputs of CORE to the host (R174). -/
structure HostPorts where
  halted : Bool
  exhausted : Bool
  r0 : Byte
  r1 : Byte
  r2 : Byte
  deriving DecidableEq, Repr

/-- The fetch unit's outputs for a fetch in a state (R171): the positions asked, the instruction if there is one, and
the cursor before the fetch.

Three points are the model's choice, left open by R171. With `fetch_valid = 0` the lines `hi` and `lo` have no value (DESIGN
CHOICE, assumption 20). With fewer than 4 characters left `stream_pos` still shows `cursor` to `cursor+3`, as R171's table
has it without exception: a position shown there is asked on the port and not read, and `State.fetch` reads no character
then (R48, decision D11) (DESIGN CHOICE, assumption 21). The output `cursor`, for observation only, shows the cursor before
this fetch: R171 does not say whether it stands before or after the fetch's advance by 4 (DESIGN CHOICE, assumption 23);
the cursor afterwards is the field `cursor` of the state that `State.fetch` answers. -/
def fetchPorts (s : State) : FetchPorts :=
  let word := s.fetch.map Prod.fst
  { streamPos := [s.cursor, s.cursor + 1, s.cursor + 2, s.cursor + 3]
    fetchValid := word.isSome
    hi := word.map hiByte
    lo := word.map loByte
    cursor := s.cursor }

/-- The halt detector: `(skip = 0) and (hi = 0x00)` on the state before the execution (41_execute_sequencing.md R104). -/
def haltDetector (w : Word) (s : State) : Bool := !s.skip && hiByte w == 0x00

/-- The engine's outputs for an execute of a word in a state (R172): the result `halt` of that execute, and beside it the
flag as it was before that execute. R172 does not say at which moment `skip` is shown: before is the model's choice
(DESIGN CHOICE, assumption 22); the flag afterwards is the field `skip` of the state that `execute` answers. -/
def enginePorts (w : Word) (s : State) : EnginePorts := { halt := haltDetector w s, skip := s.skip }

/-- CORE's outputs to the host (R174, R175). -/
def hostPorts (s : State) : HostPorts :=
  { halted := s.run == .halted, exhausted := s.run == .exhausted, r0 := s.reg0, r1 := s.reg1, r2 := s.reg2 }

end Sys2Proof.Machine
end

