-- ==== Sys2Proof/WellFormed.lean ====
section
/-! DEFINITION. Which terms of Instr are instructions of the machine. Register operands are names and immediates are
bytes, so the one thing to check is that a NOP carries a word that no other row of the opcode table selects
(46_nop.md R160, 30_encoding.md R65). -/

namespace Sys2Proof

/-- Well-formedness: a NOP carries a word of the no-op space; every other term is well formed. -/
def Instr.wf : Instr → Bool
  | .halt _ => true
  | .load _ _ => true
  | .add _ _ => true
  | .sub _ _ => true
  | .or _ _ => true
  | .and _ _ => true
  | .xor _ _ => true
  | .sei _ _ => true
  | .snei _ _ => true
  | .ser _ _ => true
  | .sner _ _ => true
  | .nop w => nopRow w

end Sys2Proof
end

