-- ==== Sys2Proof/Safety.lean ====
section
/-! DEFINITION. The vocabulary of the claims: the invariant of the machine, which registers an instruction reads and
writes, the condition of a skip instruction, and what it means that the fetch side of the state did not move. -/

namespace Sys2Proof.Machine

/-- The invariant of every state a run reaches (10_state.md R26; 20_memory.md R49; 40_fetch_unit.md R87, R88;
50_interfaces.md R179; 70_reset_and_hazards.md R219). -/
structure State.Inv (s : State) : Prop where
  /-- the stream memory is in canonical form -/
  wf : Memory.wf s.stream = true
  /-- no character stands at or beyond `L` -/
  inside : ∀ cell ∈ s.stream, cell.1 < s.streamLen
  /-- the cursor is a multiple of 4 -/
  aligned : s.cursor % 4 = 0
  /-- the cursor is never past the stream's end -/
  bounded : s.cursor ≤ s.streamLen
  /-- everything consumed was well formed -/
  consumed : ∀ p, p < s.cursor → isHex (Memory.read s.stream p) = true
  /-- a halted run stands just past a HALT, with no skip pending -/
  halted : s.run = .halted → s.skip = false ∧ 4 ≤ s.cursor ∧
    ∃ w, parseGroup (Memory.readChars s.stream (s.cursor - 4) 4) = .ok (w, []) ∧ hiByte w = 0x00
  /-- an exhausted run stands where no well-formed group is -/
  exhausted : s.run = .exhausted → s.fetch = none

/-- The registers an instruction reads (10_state.md R21). -/
def readsOf : Instr → List Reg
  | .halt _ => []
  | .load _ _ => []
  | .add x y => [x, y]
  | .sub x y => [x, y]
  | .or x y => [x, y]
  | .and x y => [x, y]
  | .xor x y => [x, y]
  | .sei k _ => [k]
  | .snei k _ => [k]
  | .ser x y => [x, y]
  | .sner x y => [x, y]
  | .nop _ => []

/-- The registers an instruction writes (10_state.md R21, R22). -/
def writesOf : Instr → List Reg
  | .halt _ => []
  | .load k _ => [k]
  | .add x _ => [x, .r2]
  | .sub x _ => [x, .r2]
  | .or x _ => [x]
  | .and x _ => [x]
  | .xor x _ => [x]
  | .sei _ _ => []
  | .snei _ _ => []
  | .ser _ _ => []
  | .sner _ _ => []
  | .nop _ => []

/-- The instruction is one of the four skip instructions and its condition holds (45_skip.md R145 to R148). -/
def SkipTaken (s : State) : Instr → Prop
  | .sei k imm => s.getReg k = imm
  | .snei k imm => s.getReg k ≠ imm
  | .ser x y => s.getReg x = s.getReg y
  | .sner x y => s.getReg x ≠ s.getReg y
  | .halt _ => False
  | .load _ _ => False
  | .add _ _ => False
  | .sub _ _ => False
  | .or _ _ => False
  | .and _ _ => False
  | .xor _ _ => False
  | .nop _ => False

/-- The number of a register (10_state.md R20). -/
def regIndex : Reg → Nat
  | .r0 => 0
  | .r1 => 1
  | .r2 => 2

/-- The word of format XY with a high byte, written as a number from the nibbles of 00_scope.md R8. -/
def xyWord (hi x y : Nat) : Word := BitVec.ofNat 16 (256 * hi + 16 * x + y)

/-- The word with a high byte and a low byte, written as a number (00_scope.md R8). -/
def hiLoWord (hi : Nat) (lo : Byte) : Word := BitVec.ofNat 16 (256 * hi + lo.toNat)

/-- The value of a digit's character by its code (40_fetch_unit.md R83). -/
def asciiDigit (c : Byte) : Nat := if c.toNat ≤ 0x39 then c.toNat - 0x30 else c.toNat - 0x37

/-- The seven high bytes of format XY (60_exceptions.md R192). -/
def xyHighBytes : List Nat := [0x20, 0x30, 0x40, 0x50, 0x60, 0x90, 0xA0]

/-- The four characters at the cursor stand in the stream and are digits: a well-formed group (40_fetch_unit.md R85). -/
def GroupAtCursor (s : State) : Prop :=
  s.cursor + 4 ≤ s.streamLen ∧ ∀ j, j < 4 → isHex (Memory.read s.stream (s.cursor + j)) = true

/-- The fetch side of the state is as it was: the cursor, the length, and every character of the stream. -/
structure FetchSideSame (s t : State) : Prop where
  cursor : t.cursor = s.cursor
  streamLen : t.streamLen = s.streamLen
  chars : ∀ p, Memory.read t.stream p = Memory.read s.stream p

/-- A next state that differs from the one before in one register at most, which holds a stated value. -/
structure OnlyRegisterWritten (s t : State) (r : Reg) (v : Byte) : Prop where
  written : t.getReg r = v
  others : ∀ q, q ≠ r → t.getReg q = s.getReg q
  skip : t.skip = s.skip
  run : t.run = s.run
  fetchSide : FetchSideSame s t

/-- A next state that differs from the one before in the Pending-Skip flag at most: set if the condition holds, left
alone otherwise. -/
structure OnlySkipSet (s t : State) (condition : Prop) : Prop where
  skip : t.skip = true ↔ condition ∨ s.skip = true
  registers : ∀ q, t.getReg q = s.getReg q
  run : t.run = s.run
  fetchSide : FetchSideSame s t

end Sys2Proof.Machine
end

