-- ==== Sys2Proof/Certificates/Slice0/Obligations.lean ====
section
/-! DEFINITION. The statements for the provers. A docstring cites the rule a statement formalises; where a clause rests
on a choice of the spec (a decision D<n>) it names that and the assumption log's entry. -/

open Sys2Proof Sys2Proof.Machine

/-! ### Encoding -/

/-- 30_encoding.md sections 3 and 5 (R64, R70, R72): the word and the text of a well-formed instruction decode to it,
whatever follows in the stream. Digit order: decision D16 (assumption 13). -/
def Obligations.DecodeOfEncodeIsIdentity : Prop :=
  ∀ i : Instr, i.wf = true →
    decode (encode i) = i ∧ ∀ rest, decodeText (encodeText i ++ rest) = .ok (i, rest)

/-- 30_encoding.md section 3 (R64, R65): every word decodes to a well-formed instruction that encodes back to the word.
For the words of HALT and NOP, some or all of whose bits the spec calls ignored (section 4, R69), this is the model's
choice: the instruction carries those bits (assumption 17, DESIGN CHOICE). -/
def Obligations.EncodeOfDecodeIsIdentity : Prop :=
  ∀ w : Word, (decode w).wf = true ∧ encode (decode w) = w

/-- R84: the parser accepts exactly the groups of four digits, whatever they spell, and is a bijection between those
groups and the words. -/
def Obligations.ParserIsBijection : Prop :=
  (∀ c0 c1 c2 c3 : Byte, (∃ w, parseGroup [c0, c1, c2, c3] = .ok (w, [])) ↔
    (isHex c0 = true ∧ isHex c1 = true ∧ isHex c2 = true ∧ isHex c3 = true)) ∧
  ∀ w : Word, ∃ text : List Byte, text.length = 4 ∧ parseGroup text = .ok (w, []) ∧
    ∀ text' : List Byte, text'.length = 4 → parseGroup text' = .ok (w, []) → text' = text

/-- 40_fetch_unit.md section 2 (R82, R83) and 20_memory.md section 2 (R44): the parser accepts four characters exactly if
each has the code of a digit `0`..`9` or `A`..`F`, and the word is the four digits read as one hexadecimal number, most
significant first. The codes are the spec's general knowledge K1, K2 and decision D1 (assumption 4); the digit order is
decision D16 (assumption 13). -/
def Obligations.ParserReadsAsciiDigitsInOrder : Prop :=
  ∀ c0 c1 c2 c3 : Byte,
    ((∃ w, parseGroup [c0, c1, c2, c3] = .ok (w, [])) ↔
      ∀ c ∈ [c0, c1, c2, c3], (0x30 ≤ c.toNat ∧ c.toNat ≤ 0x39) ∨ (0x41 ≤ c.toNat ∧ c.toNat ≤ 0x46)) ∧
    ∀ w, parseGroup [c0, c1, c2, c3] = .ok (w, []) →
      w.toNat = 4096 * asciiDigit c0 + 256 * asciiDigit c1 + 16 * asciiDigit c2 + asciiDigit c3

/-- 30_encoding.md section 3 (R64, R65) and opcode_table.json: a word decodes to an operation exactly when the table's row
of that operation selects it. Whole high byte: decision D5 (assumption 6). LOAD above register 2: D4 (assumption 7).
SEI and SNEI patterns: D6 (assumption 5). -/
def Obligations.DecodeFollowsOpcodeTable : Prop :=
  ∀ w : Word,
    (haltRow w = true ↔ ∃ lo, decode w = .halt lo) ∧
    (loadRow w = true ↔ ∃ k imm, decode w = .load k imm) ∧
    (xyRow 0x2000 w = true ↔ ∃ x y, decode w = .add x y) ∧
    (xyRow 0x3000 w = true ↔ ∃ x y, decode w = .sub x y) ∧
    (xyRow 0x4000 w = true ↔ ∃ x y, decode w = .or x y) ∧
    (xyRow 0x5000 w = true ↔ ∃ x y, decode w = .and x y) ∧
    (xyRow 0x6000 w = true ↔ ∃ x y, decode w = .xor x y) ∧
    (immCmpRow 0x7000 w = true ↔ ∃ k imm, decode w = .sei k imm) ∧
    (immCmpRow 0x8000 w = true ↔ ∃ k imm, decode w = .snei k imm) ∧
    (xyRow 0x9000 w = true ↔ ∃ x y, decode w = .ser x y) ∧
    (xyRow 0xA000 w = true ↔ ∃ x y, decode w = .sner x y) ∧
    (nopRow w = true ↔ decode w = .nop w)

/-- 95_test_vectors.md section 1 and 30_encoding.md section 5: words written out from the spec decode to the instructions
they stand for. `0x7105` as a compare of r0 is decision D6 (assumption 5). -/
def Obligations.SampleWordsDecode : Prop :=
  decode 0x0000 = .halt 0x00 ∧ decode 0x1001 = .load .r0 1 ∧ decode 0x1102 = .load .r1 2 ∧
  decode 0x2001 = .add .r0 .r1 ∧ decode 0x3020 = .sub .r2 .r0 ∧ decode 0x4012 = .or .r1 .r2 ∧
  decode 0x5001 = .and .r0 .r1 ∧ decode 0x6010 = .xor .r1 .r0 ∧ decode 0x7105 = .sei .r0 5 ∧
  decode 0x8300 = .snei .r2 0 ∧ decode 0x9020 = .ser .r2 .r0 ∧ decode 0xA012 = .sner .r1 .r2 ∧
  decode 0xFFFF = .nop 0xFFFF

/-! ### Fetch -/

/-- 40_fetch_unit.md section 1 (R81): with four digits at the cursor fetch returns the instruction they spell and advances
the cursor by 4, changing nothing else; otherwise it returns Unavailable (no state is answered, nothing is consumed).
That the first digit of a pair is the high nibble is the spec's decision D16, 20_memory.md section 2 (assumption 13). -/
def Obligations.FetchTakesWellFormedGroup : Prop :=
  ∀ s : State,
    (GroupAtCursor s → ∃ w, s.fetch = some (w, { s with cursor := s.cursor + 4 }) ∧
      (hiByte w).toNat = 16 * (hexVal (Memory.read s.stream s.cursor)).toNat
        + (hexVal (Memory.read s.stream (s.cursor + 1))).toNat ∧
      (loByte w).toNat = 16 * (hexVal (Memory.read s.stream (s.cursor + 2))).toNat
        + (hexVal (Memory.read s.stream (s.cursor + 3))).toNat) ∧
    (¬ GroupAtCursor s → s.fetch = none)

/-- 40_fetch_unit.md section 4 (R80, R91) and 20_memory.md section 4 (R48, decision D11, assumption 18): what fetch
returns depends on the cursor, the length and the characters at the cursor below the length, and on nothing else. -/
def Obligations.FetchDependsOnGroupAlone : Prop :=
  ∀ s t : State, t.cursor = s.cursor → t.streamLen = s.streamLen →
    (∀ p, s.cursor ≤ p → p < s.cursor + 4 → p < s.streamLen → Memory.read t.stream p = Memory.read s.stream p) →
    t.fetch.map Prod.fst = s.fetch.map Prod.fst

/-! ### The step -/

/-- 50_interfaces.md section 3 (R177) and 41_execute_sequencing.md R103: in `RUN` with no skip pending, when the characters at the
cursor decode to an instruction, that instruction is well formed and the step is its execution with the cursor already
past it. -/
def Obligations.StepRunsDecodedInstruction : Prop :=
  ∀ (s : State) (i : Instr), s.run = .running → s.skip = false → s.cursor + 4 ≤ s.streamLen →
    decodeText (Memory.readChars s.stream s.cursor 4) = .ok (i, []) →
    i.wf = true ∧ step s = exec i { s with cursor := s.cursor + 4 }

/-- R101: the skip check comes before any decode: a pending skip is cleared and the instruction, whatever it is, is
consumed without effect; with no skip pending the word is decoded and dispatched. -/
def Obligations.PendingSkipConsumesOneInstruction : Prop :=
  (∀ (w : Word) (s : State), s.skip = true → execute w s = .next { s with skip := false }) ∧
  (∀ (w : Word) (s : State), s.skip = false → execute w s = exec (decode w) s) ∧
  ∀ s : State, s.run = .running → s.skip = true → GroupAtCursor s →
    step s = .next { s with skip := false, cursor := s.cursor + 4 }

/-- 50_interfaces.md section 3 (R177), 40_fetch_unit.md section 3 (R87, R91): where no well-formed group stands at the
cursor the step ends the run and changes nothing else, a pending skip included, and the next fetch is Unavailable too. -/
def Obligations.UnavailableEndsTheRun : Prop :=
  ∀ s : State, s.run = .running → ¬ GroupAtCursor s →
    step s = .next { s with run := .exhausted } ∧ ({ s with run := .exhausted } : State).fetch = none

/-- 50_interfaces.md section 3 (R177, R179; decision D8, assumption 9) and 60_exceptions.md section 1 (R190): a step exists
exactly in `RUN`, so no instruction and no stream text stops the machine with a fault; the two final states have none. -/
def Obligations.StepExistsExactlyInRun : Prop :=
  ∀ s : State,
    ((∃ t, step s = .next t) ↔ s.run = .running) ∧
    (step s = .fault .haltedHasNoStep ↔ s.run = .halted) ∧
    (step s = .fault .exhaustedHasNoStep ↔ s.run = .exhausted) ∧
    ∀ r, step s ≠ .refused r

/-- 41_execute_sequencing.md section 1 (R100): execute is defined for every word in every state, gives Continue (the run
goes on as it was) or Halt (the run is over: the model holds that result in `run`, assumption 10), writes only
registers, flag and that result, and neither reads nor writes the cursor or the stream: with another cursor and another
stream it does the same. -/
def Obligations.ExecuteIsTotal : Prop :=
  ∀ (w : Word) (s : State), ∃ t, execute w s = .next t ∧
    (t.run = s.run ∨ t.run = .halted) ∧ t.cursor = s.cursor ∧ t.stream = s.stream ∧ t.streamLen = s.streamLen ∧
    ∀ (c : Nat) (m : Memory) (l : Nat),
      execute w { s with cursor := c, stream := m, streamLen := l } =
        .next { t with cursor := c, stream := m, streamLen := l }

/-- 41_execute_sequencing.md section 3 (R104): the halt detector says when execute halts, and a step halts the run exactly
when no skip is pending and the fetched high byte is `0x00`. -/
def Obligations.OnlyExecutedHaltHalts : Prop :=
  (∀ (w : Word) (s t : State), s.run = .running → execute w s = .next t →
    (t.run = .halted ↔ haltDetector w s = true)) ∧
  ∀ s t : State, step s = .next t →
    (t.run = .halted ↔ s.skip = false ∧ ∃ w s', s.fetch = some (w, s') ∧ hiByte w = 0x00)

/-- 10_state.md section 3 (R29), 45_skip.md (R149): after a step the flag is set exactly if a skip instruction was
executed and its condition held, or the fetch was Unavailable and the flag was set before. -/
def Obligations.SkipFlagSetExactlyByTakenSkip : Prop :=
  ∀ s t : State, step s = .next t →
    (t.skip = true ↔
      (s.fetch = none ∧ s.skip = true) ∨
      (s.skip = false ∧ ∃ w s', s.fetch = some (w, s') ∧ SkipTaken s (decode w)))

/-- 10_state.md section 1 (R21, R22), 44_logic.md (R138): a step changes a register only by executing an instruction that
the spec's table says writes it; register 2 is written beside the destination by ADD and SUB alone. -/
def Obligations.RegistersChangeOnlyByTheirWriters : Prop :=
  ∀ (s t : State) (q : Reg), step s = .next t → t.getReg q ≠ s.getReg q →
    s.skip = false ∧ ∃ w s', s.fetch = some (w, s') ∧ q ∈ writesOf (decode w)

/-- 10_state.md section 1 (R21): what an instruction does to registers, flag and run depends on the registers that the
spec's table says it reads, and on no other: two states that agree on those give the same written registers, the same
answer whether the flag is set, and the same answer whether the run halts. -/
def Obligations.EffectDependsOnRegistersRead : Prop :=
  ∀ (i : Instr) (s s' t t' : State), (∀ q ∈ readsOf i, s'.getReg q = s.getReg q) → s'.skip = s.skip → s'.run = s.run →
    exec i s = .next t → exec i s' = .next t' →
    (∀ q ∈ writesOf i, t'.getReg q = t.getReg q) ∧ t'.skip = t.skip ∧ t'.run = t.run

/-- R27: no instruction reads or writes the cursor; every fetched instruction, skipped or not, advances it by exactly 4,
before it executes; nothing else moves it. -/
def Obligations.CursorMovedByFetchAlone : Prop :=
  (∀ (i : Instr) (s : State), ∃ t, exec i s = .next t ∧ t.cursor = s.cursor ∧
    ∀ c, exec i { s with cursor := c } = .next { t with cursor := c }) ∧
  ∀ s t : State, step s = .next t →
    (∀ w s', s.fetch = some (w, s') → s'.cursor = s.cursor + 4 ∧ execute w s' = .next t ∧ t.cursor = s.cursor + 4) ∧
    (s.fetch = none → t.cursor = s.cursor)

/-- R42: nothing writes the stream. -/
def Obligations.StreamIsNeverWritten : Prop :=
  (∀ (i : Instr) (s t : State), exec i s = .next t → t.stream = s.stream ∧ t.streamLen = s.streamLen) ∧
  ∀ s t : State, step s = .next t →
    t.stream = s.stream ∧ t.streamLen = s.streamLen ∧ ∀ p, Memory.read t.stream p = Memory.read s.stream p

/-! ### Invariants, reset, runs -/

/-- 10_state.md R26, 40_fetch_unit.md R87 and R88, 50_interfaces.md R179, 70_reset_and_hazards.md R219: the cursor stays a
multiple of 4 within the stream, everything behind it is well formed, a halted run stands just past a HALT with no skip
pending, an exhausted run stands where fetch is Unavailable, and the stream keeps its canonical form. The run state is
the spec's decision D8 (assumption 9). -/
def Obligations.StepKeepsInvariant : Prop :=
  ∀ s t : State, s.Inv → step s = .next t → t.Inv

/-- 10_state.md sections 2 and 7 (R26, R33): the invariant holds right after reset. The stream of `State.reset`, empty, is
the model's choice (assumption 2, DESIGN CHOICE); its cursor and run state are decisions D3 and D8 (assumption 12). -/
def Obligations.ResetMeetsInvariant : Prop :=
  State.reset.Inv

/-- 10_state.md R30, R33; 50_interfaces.md section 4 (R181): the start of a run of any text has every register, the flag and
the cursor 0 and the run state `RUN`, holds exactly that text, and meets the invariant. -/
def Obligations.LaunchHoldsTheText : Prop :=
  ∀ text : List Byte,
    (State.launch text).Inv ∧ (State.launch text).streamLen = text.length ∧
    (∀ p (h : p < text.length), Memory.read (State.launch text).stream p = text[p]) ∧
    (∀ q, (State.launch text).getReg q = 0) ∧ (State.launch text).skip = false ∧
    (State.launch text).cursor = 0 ∧ (State.launch text).run = .running

/-- 70_reset_and_hazards.md section 1 (R210, R212; decisions D3, D8, D13, assumptions 12 and 15): reset gives every
piece of state its value from any state and leaves the stream, and a step before it makes no difference to it. -/
def Obligations.ResetFromAnyState : Prop :=
  (∀ s : State,
    (∀ q, s.applyReset.getReg q = 0) ∧ s.applyReset.skip = false ∧ s.applyReset.cursor = 0 ∧
    s.applyReset.run = .running ∧ s.applyReset.stream = s.stream ∧ s.applyReset.streamLen = s.streamLen) ∧
  ∀ s t : State, step s = .next t → t.applyReset = s.applyReset

/-- 70_reset_and_hazards.md section 1 (R212; decision D13, assumption 15): reset after any part of a run gives the start of
that run again; nothing is carried over. -/
def Obligations.NothingSurvivesReset : Prop :=
  ∀ (text : List Byte) (n : Nat) (t : State),
    takeSteps n (State.launch text) = .next t → t.applyReset = State.launch text

/-- 50_interfaces.md section 3 (R180): from every state in `RUN` the run is over within a quarter of the characters left
plus one steps, and no step of it faults. -/
def Obligations.EveryRunEnds : Prop :=
  ∀ s : State, s.run = .running →
    ∃ n t, n ≤ (s.streamLen - s.cursor) / 4 + 1 ∧ takeSteps n s = .next t ∧ t.run ≠ .running

/-- 20_memory.md section 6 (R51), 10_state.md R26. From any state: as long as the run goes on, the cursor has advanced by 4
for each step taken. From the start of the run of a text: as long as the run goes on after n steps, the next fetch
returns the word of the text's group at positions 4n to 4n+3, or Unavailable where no well-formed group stands there;
and the next step, the n-th counting from 0, hands exactly that word to execute, with the cursor past it. (Execute
consumes it without effect if a skip is pending: `PendingSkipConsumesOneInstruction`.) -/
def Obligations.CursorCountsSteps : Prop :=
  (∀ (n : Nat) (s t : State), takeSteps n s = .next t → t.run = .running → t.cursor = s.cursor + 4 * n) ∧
  ∀ (text : List Byte) (n : Nat) (t : State), takeSteps n (State.launch text) = .next t → t.run = .running →
    t.fetch.map Prod.fst = (parseGroup (text.drop (4 * n))).toOption.map Prod.fst ∧
    ∀ w rest, parseGroup (text.drop (4 * n)) = .ok (w, rest) →
      step t = execute w { t with cursor := 4 * n + 4 }

/-- 40_fetch_unit.md section 3 (R88): a run of a text that ends exhausted has consumed the longest prefix made of whole
well-formed groups. -/
def Obligations.ExhaustedRunConsumedLongestPrefix : Prop :=
  ∀ (text : List Byte) (n : Nat) (t : State),
    takeSteps n (State.launch text) = .next t → t.run = .exhausted →
    t.cursor % 4 = 0 ∧ t.cursor ≤ text.length ∧
    (∀ p (h : p < text.length), p < t.cursor → isHex text[p] = true) ∧
    ¬ (t.cursor + 4 ≤ text.length ∧
      ∀ p (h : p < text.length), t.cursor ≤ p → p < t.cursor + 4 → isHex text[p] = true)

/-- 50_interfaces.md section 3 (R178, R180): the run of any text ends within the bound; the program's result is the three
registers in order if it halted and no output if it was exhausted. -/
def Obligations.ProgramResultIsReportOrNothing : Prop :=
  ∀ text : List Byte, ∃ n t, n ≤ text.length / 4 + 1 ∧
    takeSteps n (State.launch text) = .next t ∧
    ((t.run = .halted ∧ runProgram text = some (.report (t.getReg .r0) (t.getReg .r1) (t.getReg .r2))) ∨
     (t.run = .exhausted ∧ runProgram text = some .noOutput))

/-! ### HALT, LOAD, NOP -/

/-- 42_halt_load.md (R115): a word with high byte `0x00` is HALT whatever its low byte; executed it ends the run and
changes nothing else, and the three registers are reported in order; skipped it does not halt. -/
def Obligations.HaltEndsRunAndReports : Prop :=
  ∀ lo : Byte, decode (hiLoWord 0x00 lo) = .halt lo ∧
    (∀ s : State, ∃ t, exec (.halt lo) s = .next t ∧ t.run = .halted ∧ (∀ q, t.getReg q = s.getReg q) ∧
      t.skip = s.skip ∧ FetchSideSame s t ∧
      t.result = some (.report (s.getReg .r0) (s.getReg .r1) (s.getReg .r2))) ∧
    ∀ s : State, s.skip = true → ∃ t, execute (hiLoWord 0x00 lo) s = .next t ∧ t.run = s.run ∧
      (∀ q, t.getReg q = s.getReg q) ∧ t.skip = false ∧ FetchSideSame s t

/-- R116: LOAD writes the immediate to its register and changes nothing else. -/
def Obligations.LoadWritesImmediate : Prop :=
  ∀ (k : Reg) (imm : Byte), decode (hiLoWord (0x10 + regIndex k) imm) = .load k imm ∧
    ∀ s : State, ∃ t, exec (.load k imm) s = .next t ∧ OnlyRegisterWritten s t k imm

/-- 42_halt_load.md (R117): a LOAD word with register index 3 to 15 changes nothing. The spec's decision D4
(assumption 7). -/
def Obligations.LoadOutOfRangeDoesNothing : Prop :=
  ∀ (hi : Nat) (lo : Byte), 0x13 ≤ hi → hi ≤ 0x1F →
    ∀ s : State, s.skip = false → execute (hiLoWord hi lo) s = .next s

/-- 46_nop.md (R160, R163): NOP changes nothing, and every word whose high byte is `0xB0` or above is one. -/
def Obligations.NopChangesNothing : Prop :=
  (∀ (w : Word) (s : State), exec (.nop w) s = .next s) ∧
  ∀ (hi : Nat) (lo : Byte), 0xB0 ≤ hi → hi ≤ 0xFF → decode (hiLoWord hi lo) = .nop (hiLoWord hi lo)

/-- R106: with either index above 2 a word of format XY changes nothing, whatever the registers hold; with both at most
2 it is no no-op. -/
def Obligations.InvalidIndexDoesNothing : Prop :=
  ∀ hi ∈ xyHighBytes, ∀ x y : Nat, x < 16 → y < 16 →
    ((2 < x ∨ 2 < y) → ∀ s : State, s.skip = false → execute (xyWord hi x y) s = .next s) ∧
    (x ≤ 2 → y ≤ 2 → decode (xyWord hi x y) ≠ .nop (xyWord hi x y))

/-! ### ADD and SUB -/

/-- R125, destination 0 or 1 (destination 2 is `ArithmeticIntoRegisterTwo`): the sum modulo 256 in the destination, the
carry in register 2, both sources read before, nothing else changed. -/
def Obligations.AddWritesSumAndCarry : Prop :=
  ∀ x y : Reg, x ≠ .r2 → decode (xyWord 0x20 (regIndex x) (regIndex y)) = .add x y ∧
    ∀ s : State, ∃ t, exec (.add x y) s = .next t ∧
      (t.getReg x).toNat = ((s.getReg x).toNat + (s.getReg y).toNat) % 256 ∧
      (t.getReg .r2).toNat = (if (s.getReg x).toNat + (s.getReg y).toNat ≥ 256 then 1 else 0) ∧
      (∀ q, q ≠ x → q ≠ .r2 → t.getReg q = s.getReg q) ∧
      t.skip = s.skip ∧ t.run = s.run ∧ FetchSideSame s t

/-- R126, destination 0 or 1 (destination 2 is `ArithmeticIntoRegisterTwo`): the difference modulo 256 in the
destination, the borrow in register 2, both sources read before, nothing else changed. -/
def Obligations.SubWritesDifferenceAndBorrow : Prop :=
  ∀ x y : Reg, x ≠ .r2 → decode (xyWord 0x30 (regIndex x) (regIndex y)) = .sub x y ∧
    ∀ s : State, ∃ t, exec (.sub x y) s = .next t ∧
      ((t.getReg x).toNat : Int) = ((s.getReg x).toNat - (s.getReg y).toNat : Int) % 256 ∧
      (t.getReg .r2).toNat = (if (s.getReg x).toNat < (s.getReg y).toNat then 1 else 0) ∧
      (∀ q, q ≠ x → q ≠ .r2 → t.getReg q = s.getReg q) ∧
      t.skip = s.skip ∧ t.run = s.run ∧ FetchSideSame s t

/-- 43_arithmetic.md, the table of ADD and SUB on register 2 (decision D7, assumption 8): with destination 2 the 8-bit
result is lost and register 2 ends as the carry or the borrow; nothing else changes. -/
def Obligations.ArithmeticIntoRegisterTwo : Prop :=
  ∀ y : Reg,
    (decode (xyWord 0x20 2 (regIndex y)) = .add .r2 y ∧ ∀ s : State, ∃ t, exec (.add .r2 y) s = .next t ∧
      (t.getReg .r2).toNat = (if (s.getReg .r2).toNat + (s.getReg y).toNat ≥ 256 then 1 else 0) ∧
      (∀ q, q ≠ .r2 → t.getReg q = s.getReg q) ∧ t.skip = s.skip ∧ t.run = s.run ∧ FetchSideSame s t) ∧
    (decode (xyWord 0x30 2 (regIndex y)) = .sub .r2 y ∧ ∀ s : State, ∃ t, exec (.sub .r2 y) s = .next t ∧
      (t.getReg .r2).toNat = (if (s.getReg .r2).toNat < (s.getReg y).toNat then 1 else 0) ∧
      (∀ q, q ≠ .r2 → t.getReg q = s.getReg q) ∧ t.skip = s.skip ∧ t.run = s.run ∧ FetchSideSame s t)

/-- 43_arithmetic.md, the integer laws (R129): result and flag together hold the exact sum and the exact difference. -/
def Obligations.ResultAndFlagHoldExactValue : Prop :=
  ∀ (x y : Reg) (s : State), x ≠ .r2 →
    (∃ t, exec (.add x y) s = .next t ∧
      (s.getReg x).toNat + (s.getReg y).toNat = 256 * (t.getReg .r2).toNat + (t.getReg x).toNat) ∧
    (∃ t, exec (.sub x y) s = .next t ∧
      ((s.getReg x).toNat : Int) - (s.getReg y).toNat = (t.getReg x).toNat - 256 * ((t.getReg .r2).toNat : Int))

/-! ### OR, AND, XOR -/

/-- R135: bit by bit OR into the first register, nothing else changed, register 2 no flag. -/
def Obligations.OrWritesBitwiseOr : Prop :=
  ∀ x y : Reg, decode (xyWord 0x40 (regIndex x) (regIndex y)) = .or x y ∧
    ∀ s : State, ∃ t v, exec (.or x y) s = .next t ∧ OnlyRegisterWritten s t x v ∧
      ∀ j, j < 8 → v.getLsbD j = ((s.getReg x).getLsbD j || (s.getReg y).getLsbD j)

/-- R136: bit by bit AND into the first register, nothing else changed, register 2 no flag. -/
def Obligations.AndWritesBitwiseAnd : Prop :=
  ∀ x y : Reg, decode (xyWord 0x50 (regIndex x) (regIndex y)) = .and x y ∧
    ∀ s : State, ∃ t v, exec (.and x y) s = .next t ∧ OnlyRegisterWritten s t x v ∧
      ∀ j, j < 8 → v.getLsbD j = ((s.getReg x).getLsbD j && (s.getReg y).getLsbD j)

/-- R137: bit by bit exclusive or into the first register, nothing else changed, register 2 no flag; with `x = y` the
register is cleared. -/
def Obligations.XorWritesBitwiseXor : Prop :=
  ∀ x y : Reg, decode (xyWord 0x60 (regIndex x) (regIndex y)) = .xor x y ∧
    ∀ s : State, ∃ t v, exec (.xor x y) s = .next t ∧ OnlyRegisterWritten s t x v ∧
      (∀ j, j < 8 → v.getLsbD j = ((s.getReg x).getLsbD j != (s.getReg y).getLsbD j)) ∧ (x = y → v = 0)

/-! ### SEI, SNEI, SER, SNER -/

/-- 45_skip.md (R145): SEI sets the flag if the register equals the immediate and changes nothing else. `0x71` compares
r0: conflict C1, decision D6 (assumption 5). -/
def Obligations.SeiSetsSkipIfEqual : Prop :=
  ∀ (k : Reg) (imm : Byte), decode (hiLoWord (0x71 + regIndex k) imm) = .sei k imm ∧
    ∀ s : State, ∃ t, exec (.sei k imm) s = .next t ∧ OnlySkipSet s t (s.getReg k = imm)

/-- 45_skip.md (R146): SNEI sets the flag if the register differs from the immediate and changes nothing else; with no
skip pending exactly one of SEI and SNEI sets it. `0x81` compares r0: conflict C1, decision D6 (assumption 5). -/
def Obligations.SneiSetsSkipIfNotEqual : Prop :=
  ∀ (k : Reg) (imm : Byte), decode (hiLoWord (0x81 + regIndex k) imm) = .snei k imm ∧
    ∀ s : State, ∃ t, exec (.snei k imm) s = .next t ∧ OnlySkipSet s t (s.getReg k ≠ imm) ∧
      (s.skip = false → ∃ u, exec (.sei k imm) s = .next u ∧ (t.skip = true ↔ u.skip = false))

/-- 45_skip.md (R147): SER sets the flag if the two registers are equal and changes nothing else; with `x = y` it always
does. -/
def Obligations.SerSetsSkipIfEqual : Prop :=
  ∀ x y : Reg, decode (xyWord 0x90 (regIndex x) (regIndex y)) = .ser x y ∧
    ∀ s : State, ∃ t, exec (.ser x y) s = .next t ∧ OnlySkipSet s t (s.getReg x = s.getReg y) ∧
      (x = y → t.skip = true)

/-- 45_skip.md (R148): SNER sets the flag if the two registers differ and changes nothing else; with `x = y` it never
does. -/
def Obligations.SnerSetsSkipIfNotEqual : Prop :=
  ∀ x y : Reg, decode (xyWord 0xA0 (regIndex x) (regIndex y)) = .sner x y ∧
    ∀ s : State, ∃ t, exec (.sner x y) s = .next t ∧ OnlySkipSet s t (s.getReg x ≠ s.getReg y) ∧
      (x = y → t.skip = s.skip)
end

