-- ==== Sys2Proof/Laws/Arith.lean ====
section
/-! SUPPORT. What the arithmetic of ADD and SUB computes, in numbers (43_arithmetic.md R125, R126, R129). -/

namespace Sys2Proof.Machine

theorem exactSum_toNat (a b : Byte) : (exactSum a b).toNat = a.toNat + b.toNat := by
  have ha := a.isLt
  have hb := b.isLt
  simp only [exactSum, BitVec.toNat_add, BitVec.toNat_setWidth]
  omega

theorem sumByte_toNat (a b : Byte) : (sumByte a b).toNat = (a.toNat + b.toNat) % 256 := by
  simp [sumByte, BitVec.extractLsb'_toNat, exactSum_toNat]

theorem sumCarry_eq (a b : Byte) : sumCarry a b = decide (256 ≤ a.toNat + b.toNat) := by
  have ha := a.isLt
  have hb := b.isLt
  have key : (a.toNat + b.toNat) / 256 = 0 ∨ (a.toNat + b.toNat) / 256 = 1 := by omega
  simp only [sumCarry, BitVec.getLsbD, exactSum_toNat, Nat.testBit, Nat.shiftRight_eq_div_pow]
  rcases key with h | h
  · have : ¬ 256 ≤ a.toNat + b.toNat := by omega
    simp [h, this]
  · have : 256 ≤ a.toNat + b.toNat := by omega
    simp [h, this]

theorem diffByte_toNat (a b : Byte) : ((diffByte a b).toNat : Int) = (a.toNat - b.toNat : Int) % 256 := by
  simp only [diffByte, exactDiff, BitVec.toNat_ofInt]
  omega

theorem diffBorrow_eq (a b : Byte) : diffBorrow a b = decide (a.toNat < b.toNat) := by
  have h : exactDiff a b < 0 ↔ a.toNat < b.toNat := by
    unfold exactDiff
    omega
  simp only [diffBorrow, h]

theorem flagByte_toNat (f : Bool) : (flagByte f).toNat = if f then 1 else 0 := by
  cases f <;> rfl

end Sys2Proof.Machine
end

