-- ==== Sys2Proof/Laws/Decode.lean ====
section
/-! SUPPORT. The small lemmas of the fields, the parser and the decoder. -/

namespace Sys2Proof

/-! ### fields as numbers (R8) -/

theorem hiByte_toNat (w : Word) : (hiByte w).toNat = w.toNat / 256 := by
  have hw := w.isLt
  simp only [hiByte, BitVec.extractLsb'_toNat, Nat.shiftRight_eq_div_pow]
  omega

theorem loByte_toNat (w : Word) : (loByte w).toNat = w.toNat % 256 := by
  simp only [loByte, BitVec.extractLsb'_toNat, Nat.shiftRight_eq_div_pow]
  omega

theorem opField_toNat (w : Word) : (opField w).toNat = w.toNat / 4096 := by
  have hw := w.isLt
  simp only [opField, BitVec.extractLsb'_toNat, Nat.shiftRight_eq_div_pow]
  omega

theorem k4Field_toNat (w : Word) : (k4Field w).toNat = w.toNat / 256 % 16 := by
  simp only [k4Field, BitVec.extractLsb'_toNat, Nat.shiftRight_eq_div_pow]

theorem xField_toNat (w : Word) : (xField w).toNat = w.toNat / 16 % 16 := by
  simp only [xField, BitVec.extractLsb'_toNat, Nat.shiftRight_eq_div_pow]

theorem yField_toNat (w : Word) : (yField w).toNat = w.toNat % 16 := by
  simp only [yField, BitVec.extractLsb'_toNat, Nat.shiftRight_eq_div_pow]
  omega

/-- Two nibbles as a byte. -/
theorem packNibbles_toNat (a b : Nibble) : (packNibbles a b).toNat = 16 * a.toNat + b.toNat := by
  have hb := b.isLt
  simp only [packNibbles, BitVec.toNat_append]
  rw [← Nat.shiftLeft_add_eq_or_of_lt hb, Nat.shiftLeft_eq]
  omega

/-- Two bytes as a word. -/
theorem packBytes_toNat (h l : Byte) : (packBytes h l).toNat = 256 * h.toNat + l.toNat := by
  have hl := l.isLt
  simp only [packBytes, BitVec.toNat_append]
  rw [← Nat.shiftLeft_add_eq_or_of_lt hl, Nat.shiftLeft_eq]
  omega

/-! ### packing and the fields -/

@[simp] theorem hiByte_packBytes (h l : Byte) : hiByte (packBytes h l) = h := by
  apply BitVec.eq_of_toNat_eq
  have := l.isLt
  rw [hiByte_toNat, packBytes_toNat]
  omega

@[simp] theorem loByte_packBytes (h l : Byte) : loByte (packBytes h l) = l := by
  apply BitVec.eq_of_toNat_eq
  have := l.isLt
  rw [loByte_toNat, packBytes_toNat]
  omega

@[simp] theorem packBytes_hiByte_loByte (w : Word) : packBytes (hiByte w) (loByte w) = w := by
  apply BitVec.eq_of_toNat_eq
  rw [packBytes_toNat, hiByte_toNat, loByte_toNat]
  omega

/-- The high byte is its two nibbles. -/
theorem hiByte_eq (w : Word) : hiByte w = packNibbles (opField w) (k4Field w) := by
  apply BitVec.eq_of_toNat_eq
  rw [packNibbles_toNat, hiByte_toNat, opField_toNat, k4Field_toNat]
  omega

/-- The low byte is its two nibbles. -/
theorem loByte_eq (w : Word) : loByte w = packNibbles (xField w) (yField w) := by
  apply BitVec.eq_of_toNat_eq
  rw [packNibbles_toNat, loByte_toNat, xField_toNat, yField_toNat]
  omega

@[simp] theorem opField_packBytes (a b : Nibble) (l : Byte) : opField (packBytes (packNibbles a b) l) = a := by
  apply BitVec.eq_of_toNat_eq
  have hl := l.isLt
  have hb := b.isLt
  rw [opField_toNat, packBytes_toNat, packNibbles_toNat]
  omega

@[simp] theorem k4Field_packBytes (a b : Nibble) (l : Byte) : k4Field (packBytes (packNibbles a b) l) = b := by
  apply BitVec.eq_of_toNat_eq
  have hl := l.isLt
  have hb := b.isLt
  rw [k4Field_toNat, packBytes_toNat, packNibbles_toNat]
  omega

@[simp] theorem xField_packBytes (h : Byte) (a b : Nibble) : xField (packBytes h (packNibbles a b)) = a := by
  apply BitVec.eq_of_toNat_eq
  have ha := a.isLt
  have hb := b.isLt
  rw [xField_toNat, packBytes_toNat, packNibbles_toNat]
  omega

@[simp] theorem yField_packBytes (h : Byte) (a b : Nibble) : yField (packBytes h (packNibbles a b)) = b := by
  apply BitVec.eq_of_toNat_eq
  have ha := a.isLt
  have hb := b.isLt
  rw [yField_toNat, packBytes_toNat, packNibbles_toNat]
  omega

/-- A byte is two nibbles: what holds of every pair of nibbles holds of every byte. -/
theorem forall_byte {p : Byte → Prop} (h : ∀ a b : Nibble, p (packNibbles a b)) (c : Byte) : p c := by
  have hc := loByte_eq (packBytes 0 c)
  rw [loByte_packBytes] at hc
  exact hc ▸ h _ _

/-! ### registers and digits -/

@[simp] theorem regOfNibble_regNibble (r : Reg) : regOfNibble (regNibble r) = some r := by
  cases r <;> rfl

/-- Only 0, 1 and 2 name a register (R106). -/
theorem regOfNibble_eq_some {n : Nibble} {r : Reg} : regOfNibble n = some r ↔ n = regNibble r := by
  cases r <;> revert n <;> decide

theorem regOfNibble_eq_none {n : Nibble} : regOfNibble n = none ↔ 2 < n.toNat := by
  revert n
  decide

theorem isHex_hexDigit (n : Nibble) : isHex (hexDigit n) = true := by
  revert n
  decide

theorem hexVal_hexDigit (n : Nibble) : hexVal (hexDigit n) = n := by
  revert n
  decide

/-- A digit is the spelling of its value: the parser loses nothing (R84). -/
theorem hexDigit_hexVal {c : Byte} (h : isHex c = true) : hexDigit (hexVal c) = c := by
  have key : ∀ a b : Nibble, isHex (packNibbles a b) = true →
      hexDigit (hexVal (packNibbles a b)) = packNibbles a b := by decide
  exact forall_byte (p := fun c => isHex c = true → hexDigit (hexVal c) = c) key c h

/-! ### the parser -/

/-- Everything the parser can answer on four characters. -/
theorem parseGroup_four (c0 c1 c2 c3 : Byte) (rest : List Byte) :
    parseGroup (c0 :: c1 :: c2 :: c3 :: rest) =
      if isHex c0 && isHex c1 && isHex c2 && isHex c3 then .ok (wordOfDigits c0 c1 c2 c3, rest)
      else .error .notHexDigit := rfl

/-- The digits of a word spell the word. -/
theorem wordOfDigits_hexDigit (w : Word) :
    wordOfDigits (hexDigit (opField w)) (hexDigit (k4Field w)) (hexDigit (xField w)) (hexDigit (yField w)) = w := by
  simp only [wordOfDigits, hexVal_hexDigit, ← hiByte_eq, ← loByte_eq, packBytes_hiByte_loByte]

/-- The text of a word parses to the word, whatever follows (R84). -/
theorem parseGroup_hexText (w : Word) (rest : List Byte) : parseGroup (hexText w ++ rest) = .ok (w, rest) := by
  simp only [hexText, List.cons_append, List.nil_append, parseGroup_four, isHex_hexDigit, wordOfDigits_hexDigit,
    Bool.and_self, if_true]

/-! ### the decoder -/

theorem decodeText_ok {text : List Byte} {w : Word} {rest : List Byte} (h : parseGroup text = .ok (w, rest)) :
    decodeText text = .ok (decode w, rest) := by
  simp [decodeText, h]

theorem decodeText_eq_ok {text : List Byte} {i : Instr} {rest : List Byte} (h : decodeText text = .ok (i, rest)) :
    ∃ w, parseGroup text = .ok (w, rest) ∧ i = decode w := by
  unfold decodeText at h
  split at h
  · cases h
    exact ⟨_, ‹_›, rfl⟩
  · cases h

/-- The two answers of an XY decode: the operation on the named registers, or NOP (R106). -/
theorem decodeXY_cases (op : Reg → Reg → Instr) (w : Word) :
    (∃ x y, xField w = regNibble x ∧ yField w = regNibble y ∧ decodeXY op w = op x y) ∨
      ((2 < (xField w).toNat ∨ 2 < (yField w).toNat) ∧ decodeXY op w = .nop w) := by
  unfold decodeXY
  cases hx : regOfNibble (xField w) with
  | none => exact .inr ⟨.inl (regOfNibble_eq_none.mp hx), rfl⟩
  | some x =>
    cases hy : regOfNibble (yField w) with
    | none => exact .inr ⟨.inr (regOfNibble_eq_none.mp hy), rfl⟩
    | some y => exact .inl ⟨x, y, regOfNibble_eq_some.mp hx, regOfNibble_eq_some.mp hy, rfl⟩

/-- The two answers of a KI decode: the operation on the named register, or NOP (R107). -/
theorem decodeKI_cases (op : Reg → Byte → Instr) (k : Nibble) (w : Word) :
    (∃ r, k = regNibble r ∧ decodeKI op k w = op r (loByte w)) ∨ (2 < k.toNat ∧ decodeKI op k w = .nop w) := by
  unfold decodeKI
  cases hk : regOfNibble k with
  | none => exact .inr ⟨regOfNibble_eq_none.mp hk, rfl⟩
  | some r => exact .inl ⟨r, regOfNibble_eq_some.mp hk, rfl⟩

end Sys2Proof
end

