-- ==== Sys2Proof/Laws/State.lean ====
section
/-! SUPPORT. One lemma per field per update of State, and reading a register after each update. -/

namespace Sys2Proof.Machine

variable (s : State)

/-! ### setReg -/

@[simp] theorem State.setReg_reg0 (r : Reg) (v : Byte) : (s.setReg r v).reg0 = if r = .r0 then v else s.reg0 := rfl
@[simp] theorem State.setReg_reg1 (r : Reg) (v : Byte) : (s.setReg r v).reg1 = if r = .r1 then v else s.reg1 := rfl
@[simp] theorem State.setReg_reg2 (r : Reg) (v : Byte) : (s.setReg r v).reg2 = if r = .r2 then v else s.reg2 := rfl
@[simp] theorem State.setReg_skip (r : Reg) (v : Byte) : (s.setReg r v).skip = s.skip := rfl
@[simp] theorem State.setReg_cursor (r : Reg) (v : Byte) : (s.setReg r v).cursor = s.cursor := rfl
@[simp] theorem State.setReg_run (r : Reg) (v : Byte) : (s.setReg r v).run = s.run := rfl
@[simp] theorem State.setReg_stream (r : Reg) (v : Byte) : (s.setReg r v).stream = s.stream := rfl
@[simp] theorem State.setReg_streamLen (r : Reg) (v : Byte) : (s.setReg r v).streamLen = s.streamLen := rfl
@[simp] theorem State.setReg_getReg (r : Reg) (v : Byte) (q : Reg) :
    (s.setReg r v).getReg q = if q = r then v else s.getReg q := by
  cases r <;> cases q <;> rfl

/-! ### setSkip -/

@[simp] theorem State.setSkip_reg0 (b : Bool) : (s.setSkip b).reg0 = s.reg0 := rfl
@[simp] theorem State.setSkip_reg1 (b : Bool) : (s.setSkip b).reg1 = s.reg1 := rfl
@[simp] theorem State.setSkip_reg2 (b : Bool) : (s.setSkip b).reg2 = s.reg2 := rfl
@[simp] theorem State.setSkip_skip (b : Bool) : (s.setSkip b).skip = b := rfl
@[simp] theorem State.setSkip_cursor (b : Bool) : (s.setSkip b).cursor = s.cursor := rfl
@[simp] theorem State.setSkip_run (b : Bool) : (s.setSkip b).run = s.run := rfl
@[simp] theorem State.setSkip_stream (b : Bool) : (s.setSkip b).stream = s.stream := rfl
@[simp] theorem State.setSkip_streamLen (b : Bool) : (s.setSkip b).streamLen = s.streamLen := rfl
@[simp] theorem State.setSkip_getReg (b : Bool) (q : Reg) : (s.setSkip b).getReg q = s.getReg q := by cases q <;> rfl

/-! ### setCursor -/

@[simp] theorem State.setCursor_reg0 (n : Nat) : (s.setCursor n).reg0 = s.reg0 := rfl
@[simp] theorem State.setCursor_reg1 (n : Nat) : (s.setCursor n).reg1 = s.reg1 := rfl
@[simp] theorem State.setCursor_reg2 (n : Nat) : (s.setCursor n).reg2 = s.reg2 := rfl
@[simp] theorem State.setCursor_skip (n : Nat) : (s.setCursor n).skip = s.skip := rfl
@[simp] theorem State.setCursor_cursor (n : Nat) : (s.setCursor n).cursor = n := rfl
@[simp] theorem State.setCursor_run (n : Nat) : (s.setCursor n).run = s.run := rfl
@[simp] theorem State.setCursor_stream (n : Nat) : (s.setCursor n).stream = s.stream := rfl
@[simp] theorem State.setCursor_streamLen (n : Nat) : (s.setCursor n).streamLen = s.streamLen := rfl
@[simp] theorem State.setCursor_getReg (n : Nat) (q : Reg) : (s.setCursor n).getReg q = s.getReg q := by cases q <;> rfl

/-! ### setRun -/

@[simp] theorem State.setRun_reg0 (r : RunState) : (s.setRun r).reg0 = s.reg0 := rfl
@[simp] theorem State.setRun_reg1 (r : RunState) : (s.setRun r).reg1 = s.reg1 := rfl
@[simp] theorem State.setRun_reg2 (r : RunState) : (s.setRun r).reg2 = s.reg2 := rfl
@[simp] theorem State.setRun_skip (r : RunState) : (s.setRun r).skip = s.skip := rfl
@[simp] theorem State.setRun_cursor (r : RunState) : (s.setRun r).cursor = s.cursor := rfl
@[simp] theorem State.setRun_run (r : RunState) : (s.setRun r).run = r := rfl
@[simp] theorem State.setRun_stream (r : RunState) : (s.setRun r).stream = s.stream := rfl
@[simp] theorem State.setRun_streamLen (r : RunState) : (s.setRun r).streamLen = s.streamLen := rfl
@[simp] theorem State.setRun_getReg (r : RunState) (q : Reg) : (s.setRun r).getReg q = s.getReg q := by cases q <;> rfl

/-! ### setStream -/

@[simp] theorem State.setStream_reg0 (m : Memory) (l : Nat) : (s.setStream m l).reg0 = s.reg0 := rfl
@[simp] theorem State.setStream_reg1 (m : Memory) (l : Nat) : (s.setStream m l).reg1 = s.reg1 := rfl
@[simp] theorem State.setStream_reg2 (m : Memory) (l : Nat) : (s.setStream m l).reg2 = s.reg2 := rfl
@[simp] theorem State.setStream_skip (m : Memory) (l : Nat) : (s.setStream m l).skip = s.skip := rfl
@[simp] theorem State.setStream_cursor (m : Memory) (l : Nat) : (s.setStream m l).cursor = s.cursor := rfl
@[simp] theorem State.setStream_run (m : Memory) (l : Nat) : (s.setStream m l).run = s.run := rfl
@[simp] theorem State.setStream_stream (m : Memory) (l : Nat) : (s.setStream m l).stream = m := rfl
@[simp] theorem State.setStream_streamLen (m : Memory) (l : Nat) : (s.setStream m l).streamLen = l := rfl
@[simp] theorem State.setStream_getReg (m : Memory) (l : Nat) (q : Reg) : (s.setStream m l).getReg q = s.getReg q := by cases q <;> rfl

/-! ### halt -/

@[simp] theorem State.halt_reg0 : (s.halt).reg0 = s.reg0 := rfl
@[simp] theorem State.halt_reg1 : (s.halt).reg1 = s.reg1 := rfl
@[simp] theorem State.halt_reg2 : (s.halt).reg2 = s.reg2 := rfl
@[simp] theorem State.halt_skip : (s.halt).skip = s.skip := rfl
@[simp] theorem State.halt_cursor : (s.halt).cursor = s.cursor := rfl
@[simp] theorem State.halt_run : (s.halt).run = .halted := rfl
@[simp] theorem State.halt_stream : (s.halt).stream = s.stream := rfl
@[simp] theorem State.halt_streamLen : (s.halt).streamLen = s.streamLen := rfl
@[simp] theorem State.halt_getReg (q : Reg) : (s.halt).getReg q = s.getReg q := by cases q <;> rfl

/-! ### exhaust -/

@[simp] theorem State.exhaust_reg0 : (s.exhaust).reg0 = s.reg0 := rfl
@[simp] theorem State.exhaust_reg1 : (s.exhaust).reg1 = s.reg1 := rfl
@[simp] theorem State.exhaust_reg2 : (s.exhaust).reg2 = s.reg2 := rfl
@[simp] theorem State.exhaust_skip : (s.exhaust).skip = s.skip := rfl
@[simp] theorem State.exhaust_cursor : (s.exhaust).cursor = s.cursor := rfl
@[simp] theorem State.exhaust_run : (s.exhaust).run = .exhausted := rfl
@[simp] theorem State.exhaust_stream : (s.exhaust).stream = s.stream := rfl
@[simp] theorem State.exhaust_streamLen : (s.exhaust).streamLen = s.streamLen := rfl
@[simp] theorem State.exhaust_getReg (q : Reg) : (s.exhaust).getReg q = s.getReg q := by cases q <;> rfl

/-! ### consumeSkip -/

@[simp] theorem State.consumeSkip_reg0 : (s.consumeSkip).reg0 = s.reg0 := rfl
@[simp] theorem State.consumeSkip_reg1 : (s.consumeSkip).reg1 = s.reg1 := rfl
@[simp] theorem State.consumeSkip_reg2 : (s.consumeSkip).reg2 = s.reg2 := rfl
@[simp] theorem State.consumeSkip_skip : (s.consumeSkip).skip = false := rfl
@[simp] theorem State.consumeSkip_cursor : (s.consumeSkip).cursor = s.cursor := rfl
@[simp] theorem State.consumeSkip_run : (s.consumeSkip).run = s.run := rfl
@[simp] theorem State.consumeSkip_stream : (s.consumeSkip).stream = s.stream := rfl
@[simp] theorem State.consumeSkip_streamLen : (s.consumeSkip).streamLen = s.streamLen := rfl
@[simp] theorem State.consumeSkip_getReg (q : Reg) : (s.consumeSkip).getReg q = s.getReg q := by cases q <;> rfl

/-! ### applyReset -/

@[simp] theorem State.applyReset_reg0 : (s.applyReset).reg0 = 0 := rfl
@[simp] theorem State.applyReset_reg1 : (s.applyReset).reg1 = 0 := rfl
@[simp] theorem State.applyReset_reg2 : (s.applyReset).reg2 = 0 := rfl
@[simp] theorem State.applyReset_skip : (s.applyReset).skip = false := rfl
@[simp] theorem State.applyReset_cursor : (s.applyReset).cursor = 0 := rfl
@[simp] theorem State.applyReset_run : (s.applyReset).run = .running := rfl
@[simp] theorem State.applyReset_stream : (s.applyReset).stream = s.stream := rfl
@[simp] theorem State.applyReset_streamLen : (s.applyReset).streamLen = s.streamLen := rfl
@[simp] theorem State.applyReset_getReg (q : Reg) : (s.applyReset).getReg q = 0 := by cases q <;> rfl

/-! ### writeBack, skipIf, readPair -/

/-- The flag write wins over a destination write to register 2 (R127, R173). -/
@[simp] theorem State.writeBack_getReg (x : Reg) (v : Byte) (flag : Bool) (q : Reg) :
    (s.writeBack x v flag).getReg q = if q = .r2 then flagByte flag else if q = x then v else s.getReg q := by
  simp [State.writeBack]

@[simp] theorem State.writeBack_skip (x : Reg) (v : Byte) (flag : Bool) : (s.writeBack x v flag).skip = s.skip := rfl
@[simp] theorem State.writeBack_cursor (x : Reg) (v : Byte) (flag : Bool) : (s.writeBack x v flag).cursor = s.cursor := rfl
@[simp] theorem State.writeBack_run (x : Reg) (v : Byte) (flag : Bool) : (s.writeBack x v flag).run = s.run := rfl
@[simp] theorem State.writeBack_stream (x : Reg) (v : Byte) (flag : Bool) : (s.writeBack x v flag).stream = s.stream := rfl
@[simp] theorem State.writeBack_streamLen (x : Reg) (v : Byte) (flag : Bool) : (s.writeBack x v flag).streamLen = s.streamLen := rfl

@[simp] theorem State.skipIf_skip (c : Bool) : (s.skipIf c).skip = (c || s.skip) := by cases c <;> rfl
@[simp] theorem State.skipIf_getReg (c : Bool) (q : Reg) : (s.skipIf c).getReg q = s.getReg q := by
  cases c <;> cases q <;> rfl
@[simp] theorem State.skipIf_cursor (c : Bool) : (s.skipIf c).cursor = s.cursor := by cases c <;> rfl
@[simp] theorem State.skipIf_run (c : Bool) : (s.skipIf c).run = s.run := by cases c <;> rfl
@[simp] theorem State.skipIf_stream (c : Bool) : (s.skipIf c).stream = s.stream := by cases c <;> rfl
@[simp] theorem State.skipIf_streamLen (c : Bool) : (s.skipIf c).streamLen = s.streamLen := by cases c <;> rfl

@[simp] theorem State.readPair_eq (x y : Reg) : s.readPair x y = (s.getReg x, s.getReg y) := rfl

/-- Two states with the same registers and the same other fields are equal. -/
theorem State.eq_of_getReg {s t : State} (hr : ∀ q, t.getReg q = s.getReg q) (hk : t.skip = s.skip)
    (hc : t.cursor = s.cursor) (hu : t.run = s.run) (hm : t.stream = s.stream) (hl : t.streamLen = s.streamLen) :
    t = s := by
  have h0 := hr .r0
  have h1 := hr .r1
  have h2 := hr .r2
  cases s
  cases t
  simp_all [State.getReg]

/-! ### placing a text -/

@[simp] theorem State.placeText_cursor (text : List Byte) : (s.placeText text).cursor = s.cursor := rfl
@[simp] theorem State.placeText_skip (text : List Byte) : (s.placeText text).skip = false := rfl
@[simp] theorem State.placeText_run (text : List Byte) : (s.placeText text).run = .running := rfl
@[simp] theorem State.placeText_stream (text : List Byte) :
    (s.placeText text).stream = Memory.writeChars s.stream s.cursor text := rfl
@[simp] theorem State.placeText_getReg (text : List Byte) (q : Reg) : (s.placeText text).getReg q = s.getReg q := by
  cases q <;> rfl

end Sys2Proof.Machine
end

