-- ==== Sys2Proof/Laws/Exec.lean ====
section
/-! SUPPORT. What each instruction's execution answers: always a next state, given once per instruction, and what no
instruction touches (41_execute_sequencing.md R100). -/

namespace Sys2Proof.Machine

/-- The state an instruction leaves: a reading aid for `exec`, which never fails. -/
def effect : Instr → State → State
  | .halt _, s => s.halt
  | .load k imm, s => s.setReg k imm
  | .add x y, s => s.writeBack x (sumByte (s.getReg x) (s.getReg y)) (sumCarry (s.getReg x) (s.getReg y))
  | .sub x y, s => s.writeBack x (diffByte (s.getReg x) (s.getReg y)) (diffBorrow (s.getReg x) (s.getReg y))
  | .or x y, s => s.setReg x (s.getReg x ||| s.getReg y)
  | .and x y, s => s.setReg x (s.getReg x &&& s.getReg y)
  | .xor x y, s => s.setReg x (s.getReg x ^^^ s.getReg y)
  | .sei k imm, s => s.skipIf (s.getReg k == imm)
  | .snei k imm, s => s.skipIf (s.getReg k != imm)
  | .ser x y, s => s.skipIf (s.getReg x == s.getReg y)
  | .sner x y, s => s.skipIf (s.getReg x != s.getReg y)
  | .nop _, s => s

theorem exec_eq_effect (i : Instr) (s : State) : exec i s = .next (effect i s) := by
  cases i <;> rfl

@[simp] theorem effect_cursor (i : Instr) (s : State) : (effect i s).cursor = s.cursor := by
  cases i <;> simp [effect]

@[simp] theorem effect_stream (i : Instr) (s : State) : (effect i s).stream = s.stream := by
  cases i <;> simp [effect]

@[simp] theorem effect_streamLen (i : Instr) (s : State) : (effect i s).streamLen = s.streamLen := by
  cases i <;> simp [effect]

/-- No instruction moves the fetch side of the state. -/
theorem effect_fetchSide (i : Instr) (s : State) : FetchSideSame s (effect i s) :=
  ⟨effect_cursor i s, effect_streamLen i s, fun p => by rw [effect_stream]⟩

/-- Only HALT writes the run state. -/
theorem effect_run (i : Instr) (s : State) : (effect i s).run = s.run ∨ ((∃ lo, i = .halt lo) ∧ (effect i s).run = .halted) := by
  cases i with
  | halt lo => exact .inr ⟨⟨lo, rfl⟩, rfl⟩
  | _ => exact .inl (by simp [effect])

/-- The flag after an instruction: set if it is a skip instruction whose condition holds, left alone otherwise. -/
theorem effect_skip (i : Instr) (s : State) : (effect i s).skip = true ↔ SkipTaken s i ∨ s.skip = true := by
  cases i <;> simp [effect, SkipTaken]

/-- A register an instruction does not write keeps its value. -/
theorem effect_getReg_of_not_mem {i : Instr} {s : State} {q : Reg} (h : q ∉ writesOf i) :
    (effect i s).getReg q = s.getReg q := by
  cases i <;> simp_all [effect, writesOf]

/-- What an instruction does is the same whatever the cursor and the stream are. -/
theorem effect_otherFetchSide (i : Instr) (s : State) (c : Nat) (m : Memory) (l : Nat) :
    effect i { s with cursor := c, stream := m, streamLen := l } =
      { effect i s with cursor := c, stream := m, streamLen := l } := by
  have hg : ∀ q, State.getReg { s with cursor := c, stream := m, streamLen := l } q = s.getReg q := by
    intro q
    cases q <;> rfl
  have hs : ∀ b, State.skipIf { s with cursor := c, stream := m, streamLen := l } b =
      { s.skipIf b with cursor := c, stream := m, streamLen := l } := by
    intro b
    cases b <;> rfl
  cases i <;> simp only [effect, hg, hs] <;> rfl

/-- An execute never fails; it clears a pending skip or has the instruction's effect (R101). -/
theorem execute_eq (w : Word) (s : State) :
    execute w s = .next (if s.skip then s.consumeSkip else effect (decode w) s) := by
  unfold execute
  split <;> simp_all [exec_eq_effect]

end Sys2Proof.Machine
end

