-- ==== Sys2Proof/Laws/Memory.lean ====
section
/-! SUPPORT. The laws of the stream memory: read after write, and every operation keeps the canonical form. -/

namespace Sys2Proof.Machine

@[simp] theorem Memory.read_nil (p : Nat) : Memory.read [] p = Memory.unlisted := rfl

theorem Memory.read_cons (a : Nat) (b : Byte) (m : Memory) (p : Nat) :
    Memory.read ((a, b) :: m) p = if p = a then b else Memory.read m p := rfl

theorem Memory.wfFrom_cons {lo a : Nat} {b : Byte} {m : Memory} :
    Memory.wfFrom lo ((a, b) :: m) = true ↔ lo ≤ a ∧ b ≠ Memory.unlisted ∧ Memory.wfFrom (a + 1) m = true := by
  simp [Memory.wfFrom, and_assoc]

theorem Memory.wfFrom_mono {lo lo' : Nat} {m : Memory} (h : lo' ≤ lo) (hm : Memory.wfFrom lo m = true) :
    Memory.wfFrom lo' m = true := by
  cases m with
  | nil => rfl
  | cons c rest =>
    obtain ⟨a, b⟩ := c
    rw [Memory.wfFrom_cons] at hm ⊢
    exact ⟨by omega, hm.2⟩

/-- Below the first listed position everything is unlisted. -/
theorem Memory.read_below {lo p : Nat} {m : Memory} (hm : Memory.wfFrom lo m = true) (hp : p < lo) :
    Memory.read m p = Memory.unlisted := by
  induction m generalizing lo with
  | nil => rfl
  | cons c rest ih =>
    obtain ⟨a, b⟩ := c
    rw [Memory.wfFrom_cons] at hm
    rw [Memory.read_cons, if_neg (by omega)]
    exact ih hm.2.2 (by omega)

/-- A write from `lo` on keeps the canonical form from `lo` on. -/
theorem Memory.wfFrom_write {lo p : Nat} {v : Byte} {m : Memory} (hm : Memory.wfFrom lo m = true) (hp : lo ≤ p) :
    Memory.wfFrom lo (Memory.write m p v) = true := by
  induction m generalizing lo with
  | nil =>
    by_cases hv : v = Memory.unlisted
    · simp [Memory.write, hv, Memory.wfFrom]
    · simp [Memory.write, hv, Memory.wfFrom, hp]
  | cons c rest ih =>
    obtain ⟨a, b⟩ := c
    have h := Memory.wfFrom_cons.mp hm
    unfold Memory.write
    split
    · split
      · exact hm
      · exact Memory.wfFrom_cons.mpr ⟨hp, ‹_›, Memory.wfFrom_cons.mpr ⟨by omega, h.2⟩⟩
    · split
      · split
        · exact Memory.wfFrom_mono (by omega) h.2.2
        · exact Memory.wfFrom_cons.mpr ⟨hp, ‹_›, by subst_vars; exact h.2.2⟩
      · exact Memory.wfFrom_cons.mpr ⟨h.1, h.2.1, ih h.2.2 (by omega)⟩

theorem Memory.wf_write {m : Memory} (hm : Memory.wf m = true) (p : Nat) (v : Byte) :
    Memory.wf (Memory.write m p v) = true :=
  Memory.wfFrom_write hm (Nat.zero_le p)

theorem Memory.wf_writeChars {m : Memory} (hm : Memory.wf m = true) (p : Nat) (text : List Byte) :
    Memory.wf (Memory.writeChars m p text) = true := by
  induction text generalizing m p with
  | nil => exact hm
  | cons c cs ih => exact ih (Memory.wf_write hm p c) (p + 1)

/-- Read after write, on a memory in canonical form. -/
theorem Memory.read_write {m : Memory} {lo : Nat} (hm : Memory.wfFrom lo m = true) (p : Nat) (v : Byte) (q : Nat) :
    Memory.read (Memory.write m p v) q = if q = p then v else Memory.read m q := by
  induction m generalizing lo with
  | nil =>
    by_cases hv : v = Memory.unlisted
    · simp [Memory.write, hv]
    · simp [Memory.write, hv, Memory.read_cons]
  | cons c rest ih =>
    obtain ⟨a, b⟩ := c
    have h := Memory.wfFrom_cons.mp hm
    unfold Memory.write
    split
    · split
      · subst_vars
        split
        · subst_vars
          rw [Memory.read_cons, if_neg (by omega)]
          exact Memory.read_below h.2.2 (by omega)
        · rfl
      · rw [Memory.read_cons]
    · split
      · subst_vars
        split
        · subst_vars
          rw [Memory.read_cons]
          split
          · subst_vars
            exact Memory.read_below h.2.2 (by omega)
          · rfl
        · simp only [Memory.read_cons]
          split <;> simp_all
      · rw [Memory.read_cons, Memory.read_cons, ih h.2.2]
        split
        · rw [if_neg (by omega)]
        · rfl

theorem Memory.read_write_same {m : Memory} (hm : Memory.wf m = true) (p : Nat) (v : Byte) :
    Memory.read (Memory.write m p v) p = v := by
  rw [Memory.read_write hm, if_pos rfl]

theorem Memory.read_write_other {m : Memory} (hm : Memory.wf m = true) {p q : Nat} (h : q ≠ p) (v : Byte) :
    Memory.read (Memory.write m p v) q = Memory.read m q := by
  rw [Memory.read_write hm, if_neg h]

/-- The cells of a text are in canonical form from the text's first position on. -/
theorem Memory.wfFrom_cellsFrom (pos : Nat) (text : List Byte) :
    Memory.wfFrom pos (Memory.cellsFrom pos text) = true := by
  induction text generalizing pos with
  | nil => rfl
  | cons c cs ih =>
    unfold Memory.cellsFrom
    split
    · exact Memory.wfFrom_mono (by omega) (ih (pos + 1))
    · exact Memory.wfFrom_cons.mpr ⟨Nat.le_refl _, ‹_›, ih (pos + 1)⟩

theorem Memory.wf_ofText (text : List Byte) : Memory.wf (Memory.ofText text) = true :=
  Memory.wfFrom_cellsFrom 0 text

theorem Memory.read_cellsFrom (pos : Nat) (text : List Byte) (p : Nat) (h : p < text.length) :
    Memory.read (Memory.cellsFrom pos text) (pos + p) = text[p] := by
  induction text generalizing pos p with
  | nil => simp at h
  | cons c cs ih =>
    unfold Memory.cellsFrom
    cases p with
    | zero =>
      split
      · subst_vars
        exact Memory.read_below (Memory.wfFrom_cellsFrom (pos + 1) cs) (by omega)
      · simp [Memory.read_cons]
    | succ n =>
      have hn : n < cs.length := by simpa using h
      have key := ih (pos + 1) n hn
      rw [show pos + 1 + n = pos + (n + 1) by omega] at key
      split
      · simpa using key
      · rw [Memory.read_cons, if_neg (by omega)]
        simpa using key

/-- The stream of a text holds the text. -/
theorem Memory.read_ofText (text : List Byte) (p : Nat) (h : p < text.length) :
    Memory.read (Memory.ofText text) p = text[p] := by
  simpa [Memory.ofText] using Memory.read_cellsFrom 0 text p h

/-- The cells of a text stand within it. -/
theorem Memory.mem_cellsFrom {pos : Nat} {text : List Byte} {cell : Host.Cell}
    (h : cell ∈ Memory.cellsFrom pos text) : cell.1 < pos + text.length := by
  induction text generalizing pos with
  | nil => simp [Memory.cellsFrom] at h
  | cons c cs ih =>
    unfold Memory.cellsFrom at h
    split at h
    · have := ih h
      simp only [List.length_cons]
      omega
    · rcases List.mem_cons.mp h with rfl | h
      · simp
      · have := ih h
        simp only [List.length_cons]
        omega

@[simp] theorem Memory.length_readChars (m : Memory) (p n : Nat) : (Memory.readChars m p n).length = n := by
  induction n generalizing p with
  | zero => rfl
  | succ n ih => simp [Memory.readChars, ih]

/-- A read of whole characters of a text is that part of the text. -/
theorem Memory.readChars_ofText (text : List Byte) (p n : Nat) (h : p + n ≤ text.length) :
    Memory.readChars (Memory.ofText text) p n = (text.drop p).take n := by
  induction n generalizing p with
  | zero => simp [Memory.readChars]
  | succ n ih =>
    rw [Memory.readChars, ih (p + 1) (by omega), Memory.read_ofText text p (by omega),
      List.drop_eq_getElem_cons (by omega : p < text.length), List.take_succ_cons]

/-- The four characters of a group. -/
theorem Memory.readChars_four (m : Memory) (p : Nat) :
    Memory.readChars m p 4 =
      [Memory.read m p, Memory.read m (p + 1), Memory.read m (p + 2), Memory.read m (p + 3)] := rfl

end Sys2Proof.Machine
end

