-- ==== Sys2Proof/Laws/Fetch.lean ====
section
/-! SUPPORT. Everything fetch can answer (40_fetch_unit.md R81, R85). -/

namespace Sys2Proof.Machine

/-- The word the four characters at the cursor spell. -/
def wordAtCursor (s : State) : Word :=
  wordOfDigits (Memory.read s.stream s.cursor) (Memory.read s.stream (s.cursor + 1))
    (Memory.read s.stream (s.cursor + 2)) (Memory.read s.stream (s.cursor + 3))

theorem groupAtCursor_iff (s : State) :
    GroupAtCursor s ↔ s.cursor + 4 ≤ s.streamLen ∧
      (isHex (Memory.read s.stream s.cursor) && isHex (Memory.read s.stream (s.cursor + 1)) &&
        isHex (Memory.read s.stream (s.cursor + 2)) && isHex (Memory.read s.stream (s.cursor + 3))) = true := by
  simp only [GroupAtCursor, Bool.and_eq_true]
  refine and_congr_right fun _ => ⟨fun h => ⟨⟨⟨h 0 (by omega), h 1 (by omega)⟩, h 2 (by omega)⟩, h 3 (by omega)⟩, ?_⟩
  rintro ⟨⟨⟨h0, h1⟩, h2⟩, h3⟩ j hj
  obtain rfl | rfl | rfl | rfl : j = 0 ∨ j = 1 ∨ j = 2 ∨ j = 3 := by omega
  · exact h0
  · exact h1
  · exact h2
  · exact h3

theorem fetch_eq_some {s : State} (h : GroupAtCursor s) :
    s.fetch = some (wordAtCursor s, s.setCursor (s.cursor + 4)) := by
  obtain ⟨hl, hh⟩ := (groupAtCursor_iff s).mp h
  simp only [State.fetch, Config.idigits, if_pos hl, Memory.readChars_four, parseGroup_four, hh, if_true]
  rfl

theorem fetch_eq_none {s : State} (h : ¬ GroupAtCursor s) : s.fetch = none := by
  rw [groupAtCursor_iff] at h
  by_cases hl : s.cursor + 4 ≤ s.streamLen
  · have hh := fun e => h ⟨hl, e⟩
    simp only [State.fetch, Config.idigits, if_pos hl, Memory.readChars_four, parseGroup_four, if_neg hh]
  · simp only [State.fetch, Config.idigits, if_neg hl]

/-- A well-formed group parses to the word its characters spell. -/
theorem parseGroup_of_group {s : State} (h : GroupAtCursor s) :
    parseGroup (Memory.readChars s.stream s.cursor 4) = .ok (wordAtCursor s, []) := by
  rw [Memory.readChars_four, parseGroup_four, if_pos ((groupAtCursor_iff s).mp h).2]
  rfl

/-- Where the stream is long enough and the parser accepts, a well-formed group stands. -/
theorem group_of_parseGroup {s : State} {w : Word} (hl : s.cursor + 4 ≤ s.streamLen)
    (hp : parseGroup (Memory.readChars s.stream s.cursor 4) = .ok (w, [])) :
    GroupAtCursor s ∧ w = wordAtCursor s := by
  rw [Memory.readChars_four, parseGroup_four] at hp
  split at hp
  · cases hp
    exact ⟨(groupAtCursor_iff s).mpr ⟨hl, ‹_›⟩, rfl⟩
  · cases hp

/-- Fetch answers an instruction exactly where a well-formed group stands. -/
theorem fetch_cases (s : State) :
    (GroupAtCursor s ∧ s.fetch = some (wordAtCursor s, s.setCursor (s.cursor + 4))) ∨
      (¬ GroupAtCursor s ∧ s.fetch = none) := by
  by_cases h : GroupAtCursor s
  · exact .inl ⟨h, fetch_eq_some h⟩
  · exact .inr ⟨h, fetch_eq_none h⟩

end Sys2Proof.Machine
end

