-- ==== Sys2Proof/Laws/PerInstr.lean ====
section
/-! SUPPORT. The family of statements made per instruction: the encoder's word is selected by the opcode table's own row
of the instruction (30_encoding.md R65, R70). -/

namespace Sys2Proof.Laws.EncodedByItsRow

/-- The word of a well-formed instruction is one that the table's row of its mnemonic selects. -/
def Statement (i : Instr) : Prop := i.wf = true → rowOf i (encode i) = true

theorem halt (lo : Byte) : Statement (.halt lo) := by
  intro _
  exact forall_byte (p := fun c => haltRow (packBytes 0x00 c) = true) (by decide) lo

theorem load (k : Reg) (imm : Byte) : Statement (.load k imm) := by
  intro _
  exact forall_byte (p := fun c => loadRow (encodeKI 0x1 (regNibble k) c) = true) (by cases k <;> decide) imm

theorem add (x y : Reg) : Statement (.add x y) := by intro _; cases x <;> cases y <;> decide

theorem sub (x y : Reg) : Statement (.sub x y) := by intro _; cases x <;> cases y <;> decide

theorem or (x y : Reg) : Statement (.or x y) := by intro _; cases x <;> cases y <;> decide

theorem and (x y : Reg) : Statement (.and x y) := by intro _; cases x <;> cases y <;> decide

theorem xor (x y : Reg) : Statement (.xor x y) := by intro _; cases x <;> cases y <;> decide

theorem sei (k : Reg) (imm : Byte) : Statement (.sei k imm) := by
  intro _
  exact forall_byte (p := fun c => immCmpRow 0x7000 (encodeKI 0x7 (regNibble k + immCmpBias) c) = true)
    (by cases k <;> decide) imm

theorem snei (k : Reg) (imm : Byte) : Statement (.snei k imm) := by
  intro _
  exact forall_byte (p := fun c => immCmpRow 0x8000 (encodeKI 0x8 (regNibble k + immCmpBias) c) = true)
    (by cases k <;> decide) imm

theorem ser (x y : Reg) : Statement (.ser x y) := by intro _; cases x <;> cases y <;> decide

theorem sner (x y : Reg) : Statement (.sner x y) := by intro _; cases x <;> cases y <;> decide

theorem nop (w : Word) : Statement (.nop w) := fun h => h

end Sys2Proof.Laws.EncodedByItsRow
end

