-- ==== Sys2Proof/Laws/Rows.lean ====
section
/-! SUPPORT. The match and mask of each row of the opcode table, said in the fields of the word (30_encoding.md R65), and
the high byte of a HALT. -/

namespace Sys2Proof

theorem packBytes_and (h h' l l' : Byte) :
    packBytes h l &&& packBytes h' l' = packBytes (h &&& h') (l &&& l') :=
  (BitVec.and_append ..)

theorem packBytes_inj {h h' l l' : Byte} : packBytes h l = packBytes h' l' ↔ h = h' ∧ l = l' := by
  constructor
  · intro e
    exact ⟨by simpa using congrArg hiByte e, by simpa using congrArg loByte e⟩
  · rintro ⟨rfl, rfl⟩
    rfl

/-- A masked comparison of a word, byte by byte. -/
theorem and_eq_iff (w : Word) (mh ml ph pl : Byte) :
    w &&& packBytes mh ml = packBytes ph pl ↔ hiByte w &&& mh = ph ∧ loByte w &&& ml = pl := by
  rw [← packBytes_inj, ← packBytes_and, packBytes_hiByte_loByte]

theorem bits_nine_eight (w : Word) : w.extractLsb' 8 2 = (hiByte w).extractLsb' 0 2 := by
  apply BitVec.eq_of_toNat_eq
  simp only [BitVec.extractLsb'_toNat, hiByte_toNat, Nat.shiftRight_eq_div_pow]
  omega

theorem bits_five_four (w : Word) : w.extractLsb' 4 2 = (loByte w).extractLsb' 4 2 := by
  apply BitVec.eq_of_toNat_eq
  simp only [BitVec.extractLsb'_toNat, loByte_toNat, Nat.shiftRight_eq_div_pow]
  omega

theorem bits_one_zero (w : Word) : w.extractLsb' 0 2 = (loByte w).extractLsb' 0 2 := by
  apply BitVec.eq_of_toNat_eq
  simp only [BitVec.extractLsb'_toNat, loByte_toNat, Nat.shiftRight_eq_div_pow]
  omega

theorem haltRow_iff (w : Word) : haltRow w = true ↔ hiByte w = 0x00 := by
  have h := and_eq_iff w 0xFF 0x00 0x00 0x00
  have e1 : packBytes 0xFF 0x00 = 0xFF00 := by decide
  have e2 : packBytes 0x00 0x00 = 0x0000 := by decide
  have e3 : ∀ a b : Nibble, packNibbles a b &&& 0xFF = packNibbles a b := by decide
  have e4 : hiByte w &&& 0xFF = hiByte w := forall_byte (p := fun c => c &&& 0xFF = c) e3 _
  rw [e1, e2, e4] at h
  simpa [haltRow] using h

/-- LOAD's row: top nibble 1 and a selector that names a register. -/
theorem loadRow_iff (w : Word) : loadRow w = true ↔ opField w = 0x1 ∧ (k4Field w).toNat ≤ 2 := by
  have h := and_eq_iff w 0xFC 0x00 0x10 0x00
  have e1 : packBytes 0xFC 0x00 = 0xFC00 := by decide
  have e2 : packBytes 0x10 0x00 = 0x1000 := by decide
  have key : ∀ a b : Nibble, (packNibbles a b &&& 0xFC = 0x10 ∧ (packNibbles a b).extractLsb' 0 2 ≠ 3) ↔
      (a = 0x1 ∧ b.toNat ≤ 2) := by decide
  rw [← key, ← hiByte_eq, ← bits_nine_eight]
  rw [e1, e2] at h
  simp only [loadRow, Bool.and_eq_true, beq_iff_eq, bne_iff_ne, h]
  simp

/-- The row of SEI or SNEI: its top nibble and a selector from 1 to 3. -/
theorem immCmpRow_iff (op : Nibble) (w : Word) :
    immCmpRow (packBytes (packNibbles op 0) 0) w = true ↔
      opField w = op ∧ 1 ≤ (k4Field w).toNat ∧ (k4Field w).toNat ≤ 3 := by
  have h := and_eq_iff w 0xFC 0x00 (packNibbles op 0) 0x00
  have e1 : packBytes 0xFC 0x00 = 0xFC00 := by decide
  have e2 : packNibbles 0xF 0xC = 0xFC := by decide
  have hand : ∀ a b c d : Nibble, packNibbles a b &&& packNibbles c d = packNibbles (a &&& c) (b &&& d) :=
    fun a b c d => BitVec.and_append ..
  have k1 : ∀ a : Nibble, a &&& 0xF = a := by decide
  have k2 : ∀ b : Nibble, (b &&& 0xC = 0 ∧ b.extractLsb' 0 2 ≠ 3#2 - 3#2) ↔ (1 ≤ b.toNat ∧ b.toNat ≤ 3) := by decide
  have k3 : ∀ a b : Nibble, (packNibbles a b).extractLsb' 0 2 = b.extractLsb' 0 2 := by decide
  have inj : ∀ a b c d : Nibble, packNibbles a b = packNibbles c d ↔ a = c ∧ b = d := by
    intro a b c d
    constructor
    · intro e
      have e' := congrArg BitVec.toNat e
      rw [packNibbles_toNat, packNibbles_toNat] at e'
      have hb := b.isLt
      have hd := d.isLt
      exact ⟨BitVec.eq_of_toNat_eq (by omega), BitVec.eq_of_toNat_eq (by omega)⟩
    · rintro ⟨rfl, rfl⟩
      rfl
  rw [e1] at h
  simp only [immCmpRow, Bool.and_eq_true, beq_iff_eq, bne_iff_ne, h]
  rw [bits_nine_eight, hiByte_eq, ← e2, hand, inj, k1, k3, ← k2]
  simp [and_assoc]

/-- The row of an XY operation: its whole high byte and two fields that name registers. -/
theorem xyRow_iff (hi : Byte) (w : Word) :
    xyRow (packBytes hi 0) w = true ↔ hiByte w = hi ∧ (xField w).toNat ≤ 2 ∧ (yField w).toNat ≤ 2 := by
  have h := and_eq_iff w 0xFF 0xCC hi 0x00
  have e1 : packBytes 0xFF 0xCC = 0xFFCC := by decide
  have e3 : ∀ a b : Nibble, packNibbles a b &&& 0xFF = packNibbles a b := by decide
  have e4 : hiByte w &&& 0xFF = hiByte w := forall_byte (p := fun c => c &&& 0xFF = c) e3 _
  have key : ∀ a b : Nibble, (packNibbles a b &&& 0xCC = 0 ∧ (packNibbles a b).extractLsb' 4 2 ≠ 3 ∧
      (packNibbles a b).extractLsb' 0 2 ≠ 3) ↔ (a.toNat ≤ 2 ∧ b.toNat ≤ 2) := by decide
  rw [← key, ← loByte_eq, ← bits_five_four, ← bits_one_zero]
  rw [e1, e4] at h
  simp only [xyRow, Bool.and_eq_true, beq_iff_eq, bne_iff_ne, h, and_assoc]

/-- A word that decodes to HALT has the high byte of HALT, and the other way round. -/
theorem hiByte_eq_zero_iff (w : Word) : hiByte w = 0x00 ↔ ∃ lo, decode w = .halt lo := by
  constructor
  · intro h
    exact ⟨loByte w, by simp [decode, h]⟩
  · rintro ⟨lo, h⟩
    by_contra hne
    rw [decode, if_neg hne] at h
    have hxy : ∀ op : Reg → Reg → Instr, (∀ x y, op x y ≠ .halt lo) → decodeXY op w ≠ .halt lo := by
      intro op hop
      rcases decodeXY_cases op w with ⟨x, y, -, -, e⟩ | ⟨-, e⟩ <;> rw [e]
      · exact hop x y
      · simp
    have hki : ∀ (op : Reg → Byte → Instr) (k : Nibble), (∀ r b, op r b ≠ .halt lo) → decodeKI op k w ≠ .halt lo := by
      intro op k hop
      rcases decodeKI_cases op k w with ⟨r, -, e⟩ | ⟨-, e⟩ <;> rw [e]
      · exact hop r _
      · simp
    split_ifs at h
    all_goals first
      | exact hki _ _ (by simp) h
      | exact hxy _ (by simp) h

end Sys2Proof
end

