-- ==== Sys2Proof/Laws/Step.lean ====
section
/-! SUPPORT. Everything a step can do, said once (50_interfaces.md R177). -/

namespace Sys2Proof.Machine

theorem step_running {s : State} (h : s.run = .running) : step s = fetchExecute s := by
  simp [step, h]

theorem step_halted {s : State} (h : s.run = .halted) : step s = .fault .haltedHasNoStep := by
  simp [step, h]

theorem step_exhausted {s : State} (h : s.run = .exhausted) : step s = .fault .exhaustedHasNoStep := by
  simp [step, h]

/-- The step where a well-formed group stands. -/
theorem step_of_group {s : State} (h : s.run = .running) (hg : GroupAtCursor s) :
    step s = execute (wordAtCursor s) (s.setCursor (s.cursor + 4)) := by
  rw [step_running h, fetchExecute, fetch_eq_some hg]

/-- The step where none stands. -/
theorem step_of_no_group {s : State} (h : s.run = .running) (hg : ¬ GroupAtCursor s) : step s = .next s.exhaust := by
  rw [step_running h, fetchExecute, fetch_eq_none hg]

/-- Inversion of the step: the run is over with nothing else changed, or a pending skip was consumed, or one decoded
instruction had its effect. -/
theorem step_cases {s t : State} (h : step s = .next t) :
    s.run = .running ∧
      ((¬ GroupAtCursor s ∧ t = s.exhaust) ∨
       (GroupAtCursor s ∧ s.skip = true ∧ t = (s.setCursor (s.cursor + 4)).consumeSkip) ∨
       (GroupAtCursor s ∧ s.skip = false ∧ t = effect (decode (wordAtCursor s)) (s.setCursor (s.cursor + 4)))) := by
  have hr : s.run = .running := by
    cases hs : s.run with
    | running => rfl
    | halted => rw [step_halted hs] at h; cases h
    | exhausted => rw [step_exhausted hs] at h; cases h
  refine ⟨hr, ?_⟩
  by_cases hg : GroupAtCursor s
  · rw [step_of_group hr hg, execute_eq, State.setCursor_skip] at h
    cases hk : s.skip with
    | true =>
      rw [hk, if_pos rfl] at h
      cases h
      exact .inr (.inl ⟨hg, rfl, rfl⟩)
    | false =>
      rw [hk] at h
      cases h
      exact .inr (.inr ⟨hg, rfl, rfl⟩)
  · rw [step_of_no_group hr hg] at h
    cases h
    exact .inl ⟨hg, rfl⟩

/-- A step never changes the stream. -/
theorem step_stream {s t : State} (h : step s = .next t) : t.stream = s.stream ∧ t.streamLen = s.streamLen := by
  obtain ⟨-, ⟨-, rfl⟩ | ⟨-, -, rfl⟩ | ⟨-, -, rfl⟩⟩ := step_cases h <;> simp

end Sys2Proof.Machine
end

