-- ==== Sys2Proof/Laws/Run.lean ====
section
/-! SUPPORT. Runs: several steps, and the one induction that carries a property along them. -/

namespace Sys2Proof.Machine

@[simp] theorem takeSteps_zero (s : State) : takeSteps 0 s = .next s := rfl

/-- One step and then `n` more. -/
theorem takeSteps_succ {s t : State} (h : step s = .next t) (n : Nat) : takeSteps (n + 1) s = takeSteps n t := by
  simp [takeSteps, h]

/-- Inversion: a run of `n + 1` steps begins with a step that has a next state. -/
theorem takeSteps_succ_inv {s u : State} {n : Nat} (h : takeSteps (n + 1) s = .next u) :
    ∃ t, step s = .next t ∧ takeSteps n t = .next u := by
  unfold takeSteps at h
  split at h
  · exact ⟨_, ‹_›, h⟩
  · cases h
  · cases h

/-- The host's run of any machine, one step at a time. -/
theorem coreRun_succ (M : Host.Core) (n : Nat) (s : M.State) :
    (∀ t, M.step s = .next t → M.run (n + 1) s = M.run n t) ∧
    (∀ f, M.step s = .fault f → M.run (n + 1) s = .fault f) ∧
    (∀ r, M.step s = .refused r → M.run (n + 1) s = .refused r) :=
  ⟨fun t h => by simp [Host.Core.run, h], fun f h => by simp [Host.Core.run, h], fun r h => by simp [Host.Core.run, h]⟩

/-- `takeSteps` is the host's run of this machine. -/
theorem takeSteps_eq_core_run (n : Nat) (s : State) : takeSteps n s = Host.Core.run Sys2Proof.core n s := by
  induction n generalizing s with
  | zero => rfl
  | succ n ih =>
    obtain ⟨hn, hf, hr⟩ := coreRun_succ Sys2Proof.core n s
    cases hs : step s with
    | next t => exact (takeSteps_succ hs n).trans ((ih t).trans (hn t hs).symm)
    | fault f =>
      have e : takeSteps (n + 1) s = .fault f := by simp [takeSteps, hs]
      exact e.trans (hf f hs).symm
    | refused r =>
      have e : takeSteps (n + 1) s = .refused r := by simp [takeSteps, hs]
      exact e.trans (hr r hs).symm

/-- What every step keeps, every run keeps. -/
theorem takeSteps_keeps {P : State → Prop} (hstep : ∀ s t, P s → step s = .next t → P t) {n : Nat} {s t : State}
    (hs : P s) (h : takeSteps n s = .next t) : P t := by
  induction n generalizing s with
  | zero =>
    cases h
    exact hs
  | succ n ih =>
    obtain ⟨u, hu, hr⟩ := takeSteps_succ_inv h
    exact ih (hstep s u hs hu) hr

/-- A run never changes the stream. -/
theorem takeSteps_stream {n : Nat} {s t : State} (h : takeSteps n s = .next t) :
    t.stream = s.stream ∧ t.streamLen = s.streamLen :=
  takeSteps_keeps (P := fun u => u.stream = s.stream ∧ u.streamLen = s.streamLen)
    (fun _ _ hu hs => ⟨(step_stream hs).1.trans hu.1, (step_stream hs).2.trans hu.2⟩) ⟨rfl, rfl⟩ h

/-- A run that is over takes no step. -/
theorem runSteps_of_over {s : State} (h : s.run ≠ .running) (n : Nat) : runSteps n s = s := by
  cases n with
  | zero => rfl
  | succ n =>
    cases hr : s.run with
    | running => exact absurd hr h
    | halted => simp [runSteps, hr]
    | exhausted => simp [runSteps, hr]

/-- `runSteps` reaches the end of a run that ends within its bound. -/
theorem runSteps_eq_of_takeSteps {n m : Nat} {s t : State} (h : takeSteps n s = .next t) (ht : t.run ≠ .running)
    (hm : n ≤ m) : runSteps m s = t := by
  induction n generalizing s m with
  | zero =>
    cases h
    exact runSteps_of_over ht m
  | succ n ih =>
    obtain ⟨u, hu, hr⟩ := takeSteps_succ_inv h
    obtain ⟨m, rfl⟩ : ∃ k, m = k + 1 := ⟨m - 1, by omega⟩
    have hrun := (step_cases hu).1
    simpa [runSteps, hrun, hu] using ih hr (by omega)

end Sys2Proof.Machine
end

