-- ==== Sys2Proof/Tests/Slice0.lean ====
section
/-! SUPPORT. Tests: expected values from 95_test_vectors.md and from the encodings of 30_encoding.md; the smoke test of
WellFormed; for every statement with hypotheses, a witness that meets them together. -/

namespace Sys2Proof.Tests

open Sys2Proof.Machine

/-- A state before an execute: three registers and the flag. -/
def st (a b c : Byte) (skip : Bool) : State := { State.reset with reg0 := a, reg1 := b, reg2 := c, skip := skip }

/-- The state an outcome answers satisfies a test. -/
def answers (o : Host.Outcome State Fault Refusal) (p : State → Bool) : Bool :=
  match o with
  | .next t => p t
  | .fault _ => false
  | .refused _ => false

/-- The registers, the flag and whether the run halted. -/
def shows (t : State) (a b c : Byte) (skip halted : Bool) : Bool :=
  t.reg0 == a && t.reg1 == b && t.reg2 == c && t.skip == skip && t.run == (if halted then .halted else .running)

/-- One execute of a word: the vector form of 95_test_vectors.md section 2. -/
def vector (w : Word) (a b c : Byte) (skip : Bool) (a' b' c' : Byte) (skip' halted : Bool) : Bool :=
  answers (execute w (st a b c skip)) fun t => shows t a' b' c' skip' halted

/-- `1001ABCD`, the stream of vector V5. -/
def text5 : List Byte := [0x31, 0x30, 0x30, 0x31, 0x41, 0x42, 0x43, 0x44]

/-! ### WellFormed: a NOP that carries a word of another row is ill formed, one test per row -/

theorem test_wf_nop_halt : Instr.wf (.nop 0x00AB) = false := by decide
theorem test_wf_nop_load : Instr.wf (.nop 0x1205) = false := by decide
theorem test_wf_nop_add : Instr.wf (.nop 0x2001) = false := by decide
theorem test_wf_nop_sub : Instr.wf (.nop 0x3022) = false := by decide
theorem test_wf_nop_or : Instr.wf (.nop 0x4010) = false := by decide
theorem test_wf_nop_and : Instr.wf (.nop 0x5002) = false := by decide
theorem test_wf_nop_xor : Instr.wf (.nop 0x6020) = false := by decide
theorem test_wf_nop_sei : Instr.wf (.nop 0x7105) = false := by decide
theorem test_wf_nop_snei : Instr.wf (.nop 0x83FF) = false := by decide
theorem test_wf_nop_ser : Instr.wf (.nop 0x9000) = false := by decide
theorem test_wf_nop_sner : Instr.wf (.nop 0xA021) = false := by decide
theorem test_wf_nop_good : (Instr.wf (.nop 0x2003) && Instr.wf (.nop 0x1305) && Instr.wf (.nop 0x7005)) = true := by decide

/-! ### Decode: one word per constructor, written bit by bit from 30_encoding.md R62 to R64 -/

theorem test_decode_halt : decode 0b0000000011111111 = .halt 0xFF := by decide
theorem test_decode_load : decode 0b0001001001111111 = .load .r2 0x7F := by decide
theorem test_decode_add : decode 0b0010000000000001 = .add .r0 .r1 := by decide
theorem test_decode_sub : decode 0b0011000000100000 = .sub .r2 .r0 := by decide
theorem test_decode_or : decode 0b0100000000010010 = .or .r1 .r2 := by decide
theorem test_decode_and : decode 0b0101000000000010 = .and .r0 .r2 := by decide
theorem test_decode_xor : decode 0b0110000000010000 = .xor .r1 .r0 := by decide
theorem test_decode_sei : decode 0b0111000100000101 = .sei .r0 5 := by decide
theorem test_decode_snei : decode 0b1000001100000000 = .snei .r2 0 := by decide
theorem test_decode_ser : decode 0b1001000000100000 = .ser .r2 .r0 := by decide
theorem test_decode_sner : decode 0b1010000000010010 = .sner .r1 .r2 := by decide
theorem test_decode_nop : decode 0b1111111111111111 = .nop 0xFFFF := by decide

/-- The neighbours that are NOP (R67): H4, L5, A17, E6, E7, F5, G8, K7. -/
theorem test_decode_neighbours :
    [0x0100, 0x1305, 0x2101, 0x7005, 0x7405, 0x8005, 0x9101, 0xA101].all (fun w => decode w == .nop w) = true := by decide

/-- The host's numbering: the word of LOAD r1, 2. -/
theorem test_decodeTableWord : decodeTableWord 16 0x1102 = some (.load .r1 2) := by decide

/-- A lower-case digit is rejected by name (V11), and so is a short tail (V8). -/
theorem test_decode_rejects :
    decodeText [0x31, 0x30, 0x66, 0x66] = .error .notHexDigit ∧ decodeText [0x31, 0x30, 0x30] = .error .tooFewCharacters := by
  constructor <;> rfl

/-- `1A2B` (V1). -/
theorem test_parse_digit_order : parseGroup [0x31, 0x41, 0x32, 0x42] = .ok (0x1A2B, []) := by rfl

/-- R70. -/
theorem test_asm : asm (.sub .r2 .r0) = "SUB r2, r0" ∧ asm (.nop 0xFFFF) = "NOP" := by decide

/-! ### Execute: at most two vectors per instruction -/

theorem test_H2_halt_ignores_low_byte : vector 0x00FF 7 8 9 false 7 8 9 false true = true := by decide
theorem test_H3_halt_skipped : vector 0x0000 7 8 9 true 7 8 9 false false = true := by decide
theorem test_L2_load_largest : vector 0x11FF 0 0 0 false 0 255 0 false false = true := by decide
theorem test_L3_load_r2 : vector 0x1200 7 8 9 false 7 8 0 false false = true := by decide
theorem test_A4_add_largest_sum : vector 0x2001 255 255 0 false 254 255 1 false false = true := by decide
theorem test_A8_add_r2_operand : vector 0x2002 5 0 3 false 8 0 0 false false = true := by decide
theorem test_A9_add_into_r2 : vector 0x2020 5 0 3 false 5 0 0 false false = true := by decide
theorem test_A14_add_invalid_index : vector 0x2003 1 2 9 false 1 2 9 false false = true := by decide
theorem test_B2_sub_borrow : vector 0x3001 3 5 9 false 254 5 1 false false = true := by decide
theorem test_B9_sub_into_r2 : vector 0x3020 5 0 3 false 5 0 1 false false = true := by decide
theorem test_O4_or_into_r2 : vector 0x4020 0x81 0 0x7E false 0x81 0 0xFF false false = true := by decide
theorem test_N1_and : vector 0x5001 0xF0 0x3C 9 false 0x30 0x3C 9 false false = true := by decide
theorem test_X4_xor : vector 0x6010 0x12 0x34 9 false 0x12 0x26 9 false false = true := by decide
theorem test_E3_sei_r1 : vector 0x7206 5 6 7 false 5 6 7 true false = true := by decide
theorem test_E10_sei_skipped : vector 0x7105 5 0 0 true 5 0 0 false false = true := by decide
theorem test_F4_snei_r2 : vector 0x8300 5 6 7 false 5 6 7 true false = true := by decide
theorem test_F3_snei_equal : vector 0x8206 5 6 7 false 5 6 7 false false = true := by decide
theorem test_G5_ser : vector 0x9020 7 8 7 false 7 8 7 true false = true := by decide
theorem test_G6_ser_invalid_index : vector 0x9003 7 7 7 false 7 7 7 false false = true := by decide
theorem test_K4_sner : vector 0xA012 7 8 9 false 7 8 9 true false = true := by decide
theorem test_K3_sner_same : vector 0xA000 7 8 0 false 7 8 0 false false = true := by decide
theorem test_P3_nop : vector 0xC123 7 8 9 false 7 8 9 false false = true := by decide

/-! ### Fetch and step -/

/-- V5: the second group of `1001ABCD`. -/
theorem test_V5_fetch :
    ((State.launch text5).setCursor 4).fetch = some (0xABCD, (State.launch text5).setCursor 8) := by decide

/-- V9: two characters left. -/
theorem test_V9_unavailable : ((State.launch [0x31, 0x30, 0x30, 0x31, 0x31, 0x30]).setCursor 4).fetch = none := by decide

/-- T13, last step: a malformed group with the flag set ends the run and leaves the flag. -/
theorem test_T13_skip_survives :
    answers (step ((State.launch [0x31, 0x30, 0x30, 0x47]).setSkip true))
      (fun t => t.run == .exhausted && t.skip && t.cursor == 0) = true := by decide

/-- The host's placing of a word makes it the first instruction after reset: LOAD r0, 1. -/
theorem test_withFetchWord :
    answers (step (State.reset.withFetchWord 16 0x1001)) (fun t => t.reg0 == 1 && t.cursor == 4 && t.run == .running) =
      true := by decide

/-- W9, the host's view: HALT at the front of the stream is reported as `0 0 0`. -/
theorem test_W9_report : runProgram [0x30, 0x30, 0x30, 0x30, 0x31, 0x30, 0x30, 0x31] = some (.report 0 0 0) := by decide

/-- The ports after that HALT (R174). -/
theorem test_ports_halted :
    hostPorts ((st 1 2 3 false).halt) = { halted := true, exhausted := false, r0 := 1, r1 := 2, r2 := 3 } := by decide

/-- The fetch unit's ports at `ABCD` (V5) and at the end of the stream (V6), where `hi` and `lo` have no value. -/
theorem test_ports_fetch :
    fetchPorts ((State.launch text5).setCursor 4) =
        { streamPos := [4, 5, 6, 7], fetchValid := true, hi := some 0xAB, lo := some 0xCD, cursor := 4 } ∧
      (fetchPorts ((State.launch text5).setCursor 8)).fetchValid = false ∧
      (fetchPorts ((State.launch text5).setCursor 8)).hi = none := by decide

/-! ### Witnesses: states and operands that meet the hypotheses of the statements -/

/-- A state in the middle of a run: `1001` consumed, `ABCD` next. -/
def midRun : State := { State.launch text5 with reg0 := 1, cursor := 4 }

/-- The same with a skip pending. -/
def midSkip : State := { midRun with skip := true }

/-- A state just before a HALT: the stream `0000`. -/
def beforeHalt : State := State.launch [0x30, 0x30, 0x30, 0x30]

/-- A state just before a taken skip: the stream `9000`. -/
def beforeSkip : State := State.launch [0x39, 0x30, 0x30, 0x30]

/-- A state at the end of its stream, a skip pending. -/
def atEnd : State := { midRun with cursor := 8, skip := true }

theorem test_witness_DecodeOfEncode : (Instr.sner .r2 .r1).wf = true ∧ (Instr.nop 0xFFFF).wf = true := by decide

theorem groupAtCursor_of_fetch {s : State} (h : s.fetch ≠ none) : GroupAtCursor s := by
  by_contra hg
  exact h (fetch_eq_none hg)

theorem not_group_of_fetch {s : State} (h : s.fetch = none) : ¬ GroupAtCursor s := by
  intro hg
  rw [fetch_eq_some hg] at h
  cases h

/-- FetchTakesWellFormedGroup, first clause. -/
theorem test_witness_group : GroupAtCursor midRun := groupAtCursor_of_fetch (by decide)

/-- FetchTakesWellFormedGroup, second clause; UnavailableEndsTheRun. -/
theorem test_witness_no_group : atEnd.run = .running ∧ ¬ GroupAtCursor atEnd := ⟨rfl, not_group_of_fetch (by decide)⟩

/-- The last position at which a group of four can stand, and one more character than fits (clauses of
FetchTakesWellFormedGroup meet at `cursor + 4 = L`). -/
theorem test_witness_group_boundary :
    midRun.cursor + 4 = midRun.streamLen ∧ ¬ GroupAtCursor { midRun with streamLen := 7 } :=
  ⟨by decide, not_group_of_fetch (by decide)⟩

/-- ParserReadsAsciiDigitsInOrder: a group with both ends of both ranges of codes (V4), and a code beside each end that
is no digit. -/
theorem test_witness_digit_codes :
    parseGroup [0x30, 0x39, 0x41, 0x46] = .ok (0x09AF, []) ∧ isHex 0x2F = false ∧ isHex 0x3A = false ∧
      isHex 0x40 = false ∧ isHex 0x47 = false :=
  ⟨by rfl, by decide, by decide, by decide, by decide⟩

/-- FetchDependsOnGroupAlone: two different states that agree on what fetch looks at. -/
theorem test_witness_FetchDependsOnGroupAlone :
    midSkip ≠ midRun ∧ midSkip.cursor = midRun.cursor ∧ midSkip.streamLen = midRun.streamLen ∧
      ∀ p, midRun.cursor ≤ p → p < midRun.cursor + 4 → p < midRun.streamLen →
        Memory.read midSkip.stream p = Memory.read midRun.stream p :=
  ⟨by decide, rfl, rfl, fun _ _ _ _ => rfl⟩

/-- StepRunsDecodedInstruction. -/
theorem test_witness_StepRunsDecodedInstruction :
    beforeSkip.run = .running ∧ beforeSkip.skip = false ∧ beforeSkip.cursor + 4 ≤ beforeSkip.streamLen ∧
      decodeText (Memory.readChars beforeSkip.stream beforeSkip.cursor 4) = .ok (.ser .r0 .r0, []) :=
  ⟨by decide, by decide, by decide, by rfl⟩

/-- PendingSkipConsumesOneInstruction. -/
theorem test_witness_PendingSkip : midSkip.run = .running ∧ midSkip.skip = true ∧ GroupAtCursor midSkip :=
  ⟨rfl, rfl, groupAtCursor_of_fetch (by decide)⟩

/-- StepExistsExactlyInRun: the three run states. -/
theorem test_witness_run_states :
    midRun.run = .running ∧ (midRun.halt).run = .halted ∧ (midRun.exhaust).run = .exhausted := by decide

/-- OnlyExecutedHaltHalts, both sides of both clauses. -/
theorem test_witness_OnlyExecutedHaltHalts :
    answers (step beforeHalt) (fun t => t.run == .halted) = true ∧ haltDetector 0x0000 (st 0 0 0 false) = true ∧
      answers (step midRun) (fun t => t.run == .running) = true ∧ haltDetector 0x0000 (st 0 0 0 true) = false := by decide

/-- SkipFlagSetExactlyByTakenSkip: the flag set by a step and the flag left set by one. -/
theorem test_witness_SkipFlag :
    answers (step beforeSkip) (fun t => t.skip) = true ∧ answers (step atEnd) (fun t => t.skip) = true := by decide

/-- RegistersChangeOnlyByTheirWriters: a step that changes a register. -/
theorem test_witness_RegistersChange :
    answers (step (State.reset.withFetchWord 16 0x1001))
      (fun t => t.getReg .r0 != (State.reset.withFetchWord 16 0x1001).getReg .r0) = true := by decide

/-- EffectDependsOnRegistersRead: two different states that agree on the registers ADD r0, r1 reads. -/
theorem test_witness_EffectDependsOnRegistersRead :
    st 1 2 3 false ≠ st 1 2 9 false ∧
      (∀ q ∈ readsOf (.add .r0 .r1), (st 1 2 9 false).getReg q = (st 1 2 3 false).getReg q) ∧
      answers (exec (.add .r0 .r1) (st 1 2 3 false)) (fun _ => true) = true ∧
      answers (exec (.add .r0 .r1) (st 1 2 9 false)) (fun _ => true) = true := by decide

/-- CursorMovedByFetchAlone and StreamIsNeverWritten: a step with a fetched word and one without. -/
theorem test_witness_step_next :
    answers (step midRun) (fun t => t.cursor == 8) = true ∧ midRun.fetch ≠ none ∧
      answers (step atEnd) (fun t => t.cursor == 8) = true ∧ atEnd.fetch = none := by decide

/-- StepKeepsInvariant: a state in the middle of a run meets the invariant and has a next state. -/
theorem test_witness_StepKeepsInvariant : midRun.Inv ∧ answers (step midRun) (fun _ => true) = true :=
  ⟨⟨by decide, by decide, by decide, by decide, by decide, by decide, by decide⟩, by decide⟩

/-- NothingSurvivesReset and CursorCountsSteps: two steps from the start of `1001ABCD`. -/
theorem test_witness_takeSteps :
    answers (takeSteps 2 (State.launch text5)) (fun t => t.run == .running && t.cursor == 8) = true := by decide

/-- CursorCountsSteps, second clause, at both ends of `1001ABCD`: one step taken, the group at 4 parses to `ABCD`; two
steps taken, no group is left. -/
theorem test_witness_nth_group :
    answers (takeSteps 1 (State.launch text5)) (fun t => t.run == .running) = true ∧
      parseGroup (text5.drop (4 * 1)) = .ok (0xABCD, []) ∧
      parseGroup (text5.drop (4 * 2)) = .error .tooFewCharacters :=
  ⟨by decide, by rfl, by rfl⟩

/-- EveryRunEnds. -/
theorem test_witness_EveryRunEnds : atEnd.run = .running ∧ (atEnd.streamLen - atEnd.cursor) / 4 + 1 = 1 := by decide

/-- ExhaustedRunConsumedLongestPrefix. -/
theorem test_witness_exhausted :
    answers (takeSteps 1 (State.launch [0x31, 0x30])) (fun t => t.run == .exhausted) = true := by decide

/-- LoadOutOfRangeDoesNothing, NopChangesNothing: both ends of their ranges. -/
theorem test_witness_ranges :
    [0x13, 0x1F, 0xB0, 0xFF].all (fun hi => decode (hiLoWord hi 0x05) == .nop (hiLoWord hi 0x05)) = true := by decide

/-- InvalidIndexDoesNothing: where its two clauses meet, indices 2 and 3. -/
theorem test_witness_InvalidIndex :
    xyHighBytes.all (fun hi => decode (xyWord hi 2 3) == .nop (xyWord hi 2 3) && decode (xyWord hi 2 2) != .nop (xyWord hi 2 2)) =
      true := by decide

/-- AddWritesSumAndCarry, SubWritesDifferenceAndBorrow, ResultAndFlagHoldExactValue: a destination other than r2, the
carry and the borrow at the edge. -/
theorem test_witness_arithmetic :
    Reg.r1 ≠ Reg.r2 ∧ sumCarry 255 1 = true ∧ sumCarry 255 0 = false ∧ diffBorrow 0 1 = true ∧ diffBorrow 1 1 = false := by
  decide

/-- HaltEndsRunAndReports, third clause. -/
theorem test_witness_skipped_halt : (st 7 8 9 true).skip = true := by decide

/-- XorWritesBitwiseXor, SerSetsSkipIfEqual, SnerSetsSkipIfNotEqual with `x = y` (X2, G3, K3). -/
theorem test_witness_same_register :
    answers (exec (.xor .r0 .r0) (st 0xAA 0 9 false)) (fun t => shows t 0 0 9 false false) = true ∧
      answers (exec (.ser .r0 .r0) (st 7 8 0 false)) (fun t => t.skip) = true ∧
      answers (exec (.sner .r0 .r0) (st 7 8 0 false)) (fun t => !t.skip) = true := by decide

/-- SneiSetsSkipIfNotEqual, the clause about SEI (E2, F2): no skip pending, one of the two sets the flag. -/
theorem test_witness_snei_complement :
    (st 5 0 0 false).skip = false ∧ answers (exec (.sei .r0 5) (st 5 0 0 false)) (fun t => t.skip) = true ∧
      answers (exec (.snei .r0 5) (st 5 0 0 false)) (fun t => !t.skip) = true := by decide

/-- LoadOutOfRangeDoesNothing and InvalidIndexDoesNothing: a state with no skip pending on which they act. -/
theorem test_witness_no_skip :
    (st 7 8 9 false).skip = false ∧ vector 0x1305 7 8 9 false 7 8 9 false false = true ∧
      vector 0x1F05 7 8 9 false 7 8 9 false false = true := by decide

end Sys2Proof.Tests
end

/-! The statements about the state (10_state.md): which registers, flag and cursor a step touches, and the invariant of
the machine at reset, at launch and after every step. -/

namespace Sys2Proof.Machine

/-! ### What an instruction's effect depends on -/

/-- The condition of a skip instruction looks at the registers the instruction reads, and at nothing else. -/
theorem skipTaken_congr {i : Instr} {s s' : State} (h : ∀ q ∈ readsOf i, s'.getReg q = s.getReg q) :
    SkipTaken s' i ↔ SkipTaken s i := by
  cases i with
  | sei k imm | snei k imm => simp [SkipTaken, h k (by simp [readsOf])]
  | ser x y | sner x y => simp [SkipTaken, h x (by simp [readsOf]), h y (by simp [readsOf])]
  | _ => exact Iff.rfl

/-- The values an instruction writes are computed from the registers it reads. -/
theorem effect_getReg_congr {i : Instr} {s s' : State} {q : Reg} (h : ∀ r ∈ readsOf i, s'.getReg r = s.getReg r)
    (hq : q ∈ writesOf i) : (effect i s').getReg q = (effect i s).getReg q := by
  cases i with
  | load k imm =>
    obtain rfl : q = k := by simpa [writesOf] using hq
    simp [effect]
  | add x y | sub x y =>
    have hx := h x (by simp [readsOf])
    have hy := h y (by simp [readsOf])
    obtain rfl | rfl : q = x ∨ q = .r2 := by simpa [writesOf] using hq
    · simp [effect, hx, hy]
    · simp [effect, hx, hy]
  | or x y | and x y | xor x y =>
    obtain rfl : q = x := by simpa [writesOf] using hq
    simp [effect, h q (by simp [readsOf]), h y (by simp [readsOf])]
  | halt | sei | snei | ser | sner | nop => simp [writesOf] at hq

theorem effect_skip_congr {i : Instr} {s s' : State} (h : ∀ q ∈ readsOf i, s'.getReg q = s.getReg q)
    (hk : s'.skip = s.skip) : (effect i s').skip = (effect i s).skip := by
  rw [Bool.eq_iff_iff, effect_skip, effect_skip, skipTaken_congr h, hk]

theorem effect_run_congr (i : Instr) {s s' : State} (hr : s'.run = s.run) : (effect i s').run = (effect i s).run := by
  cases i with
  | halt lo => rfl
  | _ => simp [effect, hr]

/-- Settles O17: written registers, flag and run are each a function of what the two states agree on. -/
theorem effectDependsOnRegistersRead : Obligations.EffectDependsOnRegistersRead := by
  intro i s s' t t' hreads hskip hrun ht ht'
  rw [exec_eq_effect] at ht ht'
  cases ht
  cases ht'
  exact ⟨fun q hq => effect_getReg_congr hreads hq, effect_skip_congr hreads hskip, effect_run_congr i hrun⟩

/-! ### What a step changes -/

/-- Settles O15, by the three things a step can do: no fetch, a skip consumed, an instruction executed. -/
theorem skipFlagSetExactlyByTakenSkip : Obligations.SkipFlagSetExactlyByTakenSkip := by
  intro s t h
  obtain ⟨-, ⟨hg, rfl⟩ | ⟨hg, hk, rfl⟩ | ⟨hg, hk, rfl⟩⟩ := step_cases h
  · simp [fetch_eq_none hg]
  · simp [fetch_eq_some hg, hk]
  · have hcond := skipTaken_congr (i := decode (wordAtCursor s)) (s := s) (s' := s.setCursor (s.cursor + 4))
      fun q _ => State.setCursor_getReg s _ q
    simp [effect_skip, hcond, fetch_eq_some hg, hk]

/-- Settles O16: of the three things a step can do only an executed instruction writes registers, and only its own. -/
theorem registersChangeOnlyByTheirWriters : Obligations.RegistersChangeOnlyByTheirWriters := by
  intro s t q h hne
  obtain ⟨-, ⟨-, rfl⟩ | ⟨-, -, rfl⟩ | ⟨hg, hk, rfl⟩⟩ := step_cases h
  · exact absurd (State.exhaust_getReg s q) hne
  · exact absurd (by simp) hne
  · refine ⟨hk, wordAtCursor s, _, fetch_eq_some hg, ?_⟩
    by_contra hq
    exact hne (by rw [effect_getReg_of_not_mem hq, State.setCursor_getReg])

/-- An instruction's effect commutes with moving the cursor. -/
theorem effect_setCursor (i : Instr) (s : State) (c : Nat) :
    effect i (s.setCursor c) = (effect i s).setCursor c :=
  calc effect i (s.setCursor c)
    _ = { effect i s with cursor := c, stream := s.stream, streamLen := s.streamLen } :=
        effect_otherFetchSide i s c s.stream s.streamLen
    _ = (effect i s).setCursor c := by rw [← effect_stream i s, ← effect_streamLen i s]; rfl

theorem execute_cursor {w : Word} {s t : State} (h : execute w s = .next t) : t.cursor = s.cursor := by
  rw [execute_eq] at h
  cases h
  split <;> simp

/-- Settles O18: `exec` is blind to the cursor, and the step's cursor is the one fetch left. -/
theorem cursorMovedByFetchAlone : Obligations.CursorMovedByFetchAlone := by
  refine ⟨fun i s => ⟨effect i s, exec_eq_effect i s, effect_cursor i s, fun c => ?_⟩, fun s t h => ?_⟩
  · rw [exec_eq_effect]
    exact congrArg Host.Outcome.next (effect_setCursor i s c)
  · have hr := (step_cases h).1
    by_cases hg : GroupAtCursor s
    · rw [step_of_group hr hg] at h
      rw [fetch_eq_some hg]
      refine ⟨fun w s' e => ?_, nofun⟩
      cases e
      exact ⟨rfl, h, execute_cursor h⟩
    · rw [step_of_no_group hr hg] at h
      cases h
      rw [fetch_eq_none hg]
      exact ⟨nofun, fun _ => rfl⟩

/-! ### The invariant -/

/-- Reset establishes the invariant over any stream in canonical form that stands within its length. -/
theorem State.inv_applyReset {s : State} (hwf : Memory.wf s.stream = true)
    (hin : ∀ cell ∈ s.stream, cell.1 < s.streamLen) : s.applyReset.Inv where
  wf := hwf
  inside := hin
  aligned := rfl
  bounded := Nat.zero_le _
  consumed := fun _ hp => absurd hp (Nat.not_lt_zero _)
  halted := nofun
  exhausted := nofun

/-- Settles O21: the reset state is a reset over the empty stream. -/
theorem resetMeetsInvariant : Obligations.ResetMeetsInvariant :=
  State.inv_applyReset (s := State.reset) rfl nofun

/-- A text given to the machine stands within its length. -/
theorem Memory.mem_ofText {text : List Byte} {cell : Host.Cell} (h : cell ∈ Memory.ofText text) :
    cell.1 < text.length := by
  simpa using Memory.mem_cellsFrom h

theorem State.inv_launch (text : List Byte) : (State.launch text).Inv :=
  State.inv_applyReset (s := State.reset.loadStream text) (Memory.wf_ofText text) fun _ h => Memory.mem_ofText h

/-- Settles O22: a launch is reset over the stream of the text. -/
theorem launchHoldsTheText : Obligations.LaunchHoldsTheText := fun text =>
  ⟨State.inv_launch text, rfl, Memory.read_ofText text, State.applyReset_getReg _, rfl, rfl, rfl⟩

/-- The characters of a well-formed group at the cursor join those consumed before. -/
theorem State.Inv.consumed_past_group {s : State} (hs : s.Inv) (hg : GroupAtCursor s) {p : Nat}
    (hp : p < s.cursor + 4) : isHex (Memory.read s.stream p) = true := by
  by_cases hlt : p < s.cursor
  · exact hs.consumed p hlt
  · have hdigit := hg.2 (p - s.cursor) (by omega)
    rwa [Nat.add_sub_cancel' (by omega)] at hdigit

/-- A state just past a well-formed group over the same stream meets the invariant, if it runs on, or is halted with no
skip pending and the group is a HALT. -/
theorem State.Inv.past_group {s t : State} (hs : s.Inv) (hg : GroupAtCursor s) (hcursor : t.cursor = s.cursor + 4)
    (hstream : t.stream = s.stream) (hlen : t.streamLen = s.streamLen)
    (hrun : t.run = .running ∨ (t.run = .halted ∧ t.skip = false ∧ hiByte (wordAtCursor s) = 0x00)) : t.Inv where
  wf := hstream ▸ hs.wf
  inside := by simpa only [hstream, hlen] using hs.inside
  aligned := by simpa [hcursor] using hs.aligned
  bounded := by simpa only [hcursor, hlen] using hg.1
  consumed := fun p hp => hstream ▸ hs.consumed_past_group hg (hcursor ▸ hp)
  halted := by
    intro h
    obtain ⟨hskip, hhi⟩ : t.skip = false ∧ hiByte (wordAtCursor s) = 0x00 := by simpa [h] using hrun
    refine ⟨hskip, by omega, wordAtCursor s, ?_, hhi⟩
    rw [hstream, hcursor, Nat.add_sub_cancel]
    exact parseGroup_of_group hg
  exhausted := fun h => by simp [h] at hrun

/-- Where fetch is Unavailable the end of the run keeps the invariant (40_fetch_unit.md R87). -/
theorem State.Inv.exhaust {s : State} (hs : s.Inv) (hg : ¬ GroupAtCursor s) : s.exhaust.Inv where
  wf := hs.wf
  inside := hs.inside
  aligned := hs.aligned
  bounded := hs.bounded
  consumed := hs.consumed
  halted := nofun
  exhausted := fun _ => fetch_eq_none (s := s.exhaust) hg

/-- Settles O20: an Unavailable fetch stops in place, a consumed skip and an executed instruction stand just past a
group, and of instructions HALT alone ends the run. -/
theorem stepKeepsInvariant : Obligations.StepKeepsInvariant := by
  intro s t hs h
  obtain ⟨hr, ⟨hg, rfl⟩ | ⟨hg, -, rfl⟩ | ⟨hg, hk, rfl⟩⟩ := step_cases h
  · exact hs.exhaust hg
  · exact hs.past_group hg rfl rfl rfl (.inl hr)
  · refine hs.past_group hg (by simp) (by simp) (by simp) ?_
    rcases effect_run (decode (wordAtCursor s)) (s.setCursor (s.cursor + 4)) with hrun | ⟨⟨lo, hi⟩, hrun⟩
    · exact .inl (hrun.trans hr)
    · exact .inr ⟨hrun, by rw [hi]; exact hk, (hiByte_eq_zero_iff _).mpr ⟨lo, hi⟩⟩

end Sys2Proof.Machine

/-! The statements about the stream memory (20_memory.md): nothing writes it, and the cursor walks through it one group
of four characters for each step. -/

namespace Sys2Proof.Machine

/-- Settles O19: no instruction's effect touches the stream, and so no step does. -/
theorem streamIsNeverWritten : Obligations.StreamIsNeverWritten := by
  refine ⟨fun i s t h => ?_, fun s t h => ?_⟩
  · rw [exec_eq_effect] at h
    cases h
    exact ⟨effect_stream i s, effect_streamLen i s⟩
  · obtain ⟨hstream, hlen⟩ := step_stream h
    exact ⟨hstream, hlen, fun p => by rw [hstream]⟩

/-! ### The cursor along a run -/

/-- Only an Unavailable fetch leaves the cursor in place, and it ends the run. -/
theorem step_cursor_of_running {s t : State} (h : step s = .next t) (ht : t.run = .running) :
    t.cursor = s.cursor + 4 := by
  obtain ⟨-, ⟨-, rfl⟩ | ⟨-, -, rfl⟩ | ⟨-, -, rfl⟩⟩ := step_cases h
  · cases ht
  · rfl
  · simp

/-- A run that still goes on went on at its start: no step leads out of a run that is over. -/
theorem running_of_takeSteps {n : Nat} {s t : State} (h : takeSteps n s = .next t) (ht : t.run = .running) :
    s.run = .running := by
  cases n with
  | zero =>
    cases h
    exact ht
  | succ n =>
    obtain ⟨u, hstep, -⟩ := takeSteps_succ_inv h
    exact (step_cases hstep).1

theorem takeSteps_cursor_of_running {n : Nat} {s t : State} (h : takeSteps n s = .next t) (ht : t.run = .running) :
    t.cursor = s.cursor + 4 * n := by
  induction n generalizing s with
  | zero =>
    cases h
    rfl
  | succ n ih =>
    obtain ⟨u, hstep, hrest⟩ := takeSteps_succ_inv h
    have hu := step_cursor_of_running hstep (running_of_takeSteps hrest ht)
    have htail := ih hrest
    omega

/-! ### The group that fetch reads from a text -/

theorem parseGroup_of_short {text : List Byte} (h : text.length < 4) : parseGroup text = .error .tooFewCharacters := by
  match text, h with
  | [], _ | [_], _ | [_, _], _ | [_, _, _], _ => rfl

/-- The word a text's front group parses to is that of its first four characters. -/
theorem parseGroup_take_four (text : List Byte) :
    (parseGroup (text.take 4)).toOption.map Prod.fst = (parseGroup text).toOption.map Prod.fst := by
  match text with
  | [] | [_] | [_, _] | [_, _, _] => rfl
  | c0 :: c1 :: c2 :: c3 :: rest =>
    simp only [List.take_succ_cons, parseGroup_four]
    split <;> rfl

/-- Where four characters remain, fetch answers what the parser answers to them. -/
theorem fetch_word_of_room {s : State} (h : s.cursor + 4 ≤ s.streamLen) :
    s.fetch.map Prod.fst = (parseGroup (Memory.readChars s.stream s.cursor 4)).toOption.map Prod.fst := by
  simp only [State.fetch, Config.idigits, if_pos h]
  cases parseGroup (Memory.readChars s.stream s.cursor 4) <;> rfl

/-- Over the stream of a text fetch answers the word of the text's group at the cursor (20_memory.md R51). -/
theorem fetch_word_of_text {s : State} {text : List Byte} (hstream : s.stream = Memory.ofText text)
    (hlen : s.streamLen = text.length) :
    s.fetch.map Prod.fst = (parseGroup (text.drop s.cursor)).toOption.map Prod.fst := by
  by_cases hroom : s.cursor + 4 ≤ text.length
  · rw [fetch_word_of_room (by omega), hstream, Memory.readChars_ofText text _ 4 hroom, parseGroup_take_four]
  · have hfetch : s.fetch = none := fetch_eq_none fun hg => hroom (hlen ▸ hg.1)
    have hshort : (text.drop s.cursor).length < 4 := by rw [List.length_drop]; omega
    rw [hfetch, parseGroup_of_short hshort]
    rfl

/-- The step where fetch answers a word hands that word to execute, with the cursor past it. -/
theorem step_of_fetch_word {s : State} {w : Word} (hr : s.run = .running) (h : s.fetch.map Prod.fst = some w) :
    step s = execute w (s.setCursor (s.cursor + 4)) := by
  rcases fetch_cases s with ⟨hg, hfetch⟩ | ⟨-, hfetch⟩
  · obtain rfl : wordAtCursor s = w := by simpa [hfetch] using h
    exact step_of_group hr hg
  · simp [hfetch] at h

/-- Settles O26: each step of a run that goes on moves the cursor by 4, so after `n` steps from the launch of a text fetch
stands at the text's group `n`. -/
theorem cursorCountsSteps : Obligations.CursorCountsSteps := by
  refine ⟨fun n s t => takeSteps_cursor_of_running, fun text n t h ht => ?_⟩
  obtain ⟨hstream, hlen⟩ := takeSteps_stream h
  have hcursor : t.cursor = 4 * n := by simpa [State.launch] using takeSteps_cursor_of_running h ht
  have hfetch : t.fetch.map Prod.fst = (parseGroup (text.drop (4 * n))).toOption.map Prod.fst :=
    hcursor ▸ fetch_word_of_text hstream hlen
  refine ⟨hfetch, fun w rest hp => ?_⟩
  rw [hp] at hfetch
  rw [step_of_fetch_word ht hfetch, hcursor]
  rfl

end Sys2Proof.Machine

/-! The statements about the encoding (30_encoding.md): the decoder and the encoder undo each other, and each row of the
opcode table selects the words that decode to its operation. -/

namespace Sys2Proof

/-! ### The words of the two formats -/

/-- A word of format XY is determined by its high byte and its two register fields (R62). -/
theorem encodeXY_eq_iff {hi : Byte} {x y : Reg} {w : Word} :
    encodeXY hi x y = w ↔ hiByte w = hi ∧ xField w = regNibble x ∧ yField w = regNibble y := by
  constructor
  · rintro rfl
    simp [encodeXY]
  · rintro ⟨rfl, hx, hy⟩
    rw [encodeXY, ← hx, ← hy, ← loByte_eq, packBytes_hiByte_loByte]

/-- A word of format KI is determined by its top nibble, selector and immediate (R62). -/
theorem encodeKI_eq_iff {op k : Nibble} {imm : Byte} {w : Word} :
    encodeKI op k imm = w ↔ opField w = op ∧ k4Field w = k ∧ loByte w = imm := by
  constructor
  · rintro rfl
    simp [encodeKI]
  · rintro ⟨rfl, rfl, rfl⟩
    rw [encodeKI, ← hiByte_eq, packBytes_hiByte_loByte]

theorem decodeXY_encodeXY (op : Reg → Reg → Instr) (hi : Byte) (x y : Reg) :
    decodeXY op (encodeXY hi x y) = op x y := by
  simp [decodeXY, encodeXY]

theorem decodeKI_encodeKI (op : Reg → Byte → Instr) (top k : Nibble) (r : Reg) (imm : Byte) :
    decodeKI op (regNibble r) (encodeKI top k imm) = op r imm := by
  simp [decodeKI, encodeKI]

/-- A decode of format XY loses nothing: the operation's word is the decoded one, and so is NOP's. -/
theorem encode_decodeXY {op : Reg → Reg → Instr} {hi : Byte} (henc : ∀ x y, encode (op x y) = encodeXY hi x y)
    {w : Word} (hw : hiByte w = hi) : encode (decodeXY op w) = w := by
  rcases decodeXY_cases op w with ⟨x, y, hx, hy, e⟩ | ⟨-, e⟩
  · rw [e, henc, encodeXY_eq_iff]
    exact ⟨hw, hx, hy⟩
  · rw [e, encode]

/-- A decode of format KI loses nothing; `bias` is what the selector stands above the register's number. -/
theorem encode_decodeKI {op : Reg → Byte → Instr} {top bias : Nibble}
    (henc : ∀ r imm, encode (op r imm) = encodeKI top (regNibble r + bias) imm) {w : Word} (hw : opField w = top) :
    encode (decodeKI op (k4Field w - bias) w) = w := by
  rcases decodeKI_cases op (k4Field w - bias) w with ⟨r, hr, e⟩ | ⟨-, e⟩
  · rw [e, henc, encodeKI_eq_iff]
    exact ⟨hw, by rw [← hr, BitVec.sub_add_cancel], rfl⟩
  · rw [e, encode]

/-! ### Decoder and encoder -/

/-- Every word is the word of the instruction it decodes to, by the branches of the decoder. -/
theorem encode_decode (w : Word) : encode (decode w) = w := by
  unfold decode
  split
  · next hhalt => rw [encode, ← hhalt, packBytes_hiByte_loByte]
  split_ifs with hload hadd hsub hor hand hxor hsei hsnei hser hsner
  · simpa using encode_decodeKI (op := .load) (bias := 0) (by simp [encode]) hload
  · exact encode_decodeXY (fun _ _ => rfl) hadd
  · exact encode_decodeXY (fun _ _ => rfl) hsub
  · exact encode_decodeXY (fun _ _ => rfl) hor
  · exact encode_decodeXY (fun _ _ => rfl) hand
  · exact encode_decodeXY (fun _ _ => rfl) hxor
  · exact encode_decodeKI (fun _ _ => rfl) hsei
  · exact encode_decodeKI (fun _ _ => rfl) hsnei
  · exact encode_decodeXY (fun _ _ => rfl) hser
  · exact encode_decodeXY (fun _ _ => rfl) hsner
  · rfl

/-- A high byte is compared nibble by nibble. -/
theorem hiByte_eq_iff {w : Word} {hi : Byte} :
    hiByte w = hi ↔ opField w = hi.extractLsb' 4 4 ∧ k4Field w = hi.extractLsb' 0 4 := by
  have hw := w.isLt
  have hh := hi.isLt
  simp only [← BitVec.toNat_inj, hiByte_toNat, opField_toNat, k4Field_toNat, BitVec.extractLsb'_toNat,
    Nat.shiftRight_eq_div_pow]
  omega

/-- The high byte of format XY decides every test of the decoder. -/
theorem encodeXY_hiByte_opField (hi : Byte) (x y : Reg) :
    hiByte (encodeXY hi x y) = hi ∧ opField (encodeXY hi x y) = hi.extractLsb' 4 4 :=
  have hhi : hiByte (encodeXY hi x y) = hi := hiByte_packBytes ..
  ⟨hhi, (hiByte_eq_iff.mp hhi).1⟩

/-- The top nibble of format KI decides every test of the decoder, since no listed high byte has it. -/
theorem encodeKI_opField_k4Field (top k : Nibble) (imm : Byte) :
    opField (encodeKI top k imm) = top ∧ k4Field (encodeKI top k imm) = k :=
  ⟨opField_packBytes .., k4Field_packBytes ..⟩

/-- Each of the eleven effective operations, with any operands, is what its word decodes to. -/
theorem decode_encode_of_effective {i : Instr} (hi : ∀ v, i ≠ .nop v) : decode (encode i) = i := by
  cases i with
  | halt lo => simp [decode, encode]
  | add x y | sub x y | or x y | and x y | xor x y | ser x y | sner x y =>
    simp [decode, encode, encodeXY_hiByte_opField, decodeXY_encodeXY]
  | load k imm | sei k imm | snei k imm =>
    simp [decode, encode, hiByte_eq_iff, encodeKI_opField_k4Field, decodeKI_encodeKI]
  | nop v => exact absurd rfl (hi v)

/-- An effective operation is decoded from its own word alone. -/
theorem decode_eq_iff_of_effective {i : Instr} (hi : ∀ v, i ≠ .nop v) {w : Word} : decode w = i ↔ encode i = w := by
  constructor
  · rintro rfl
    exact encode_decode w
  · rintro rfl
    exact decode_encode_of_effective hi

/-! ### The rows of the opcode table -/

/-- The fields that name a register are 0, 1 and 2 (R106). -/
theorem toNat_le_two_iff {n : Nibble} : n.toNat ≤ 2 ↔ ∃ r, n = regNibble r := by
  rw [← not_lt, ← regOfNibble_eq_none, ← ne_eq, Option.ne_none_iff_exists']
  simp only [regOfNibble_eq_some]

/-- The selectors of SEI and SNEI that name a register are 1, 2 and 3 (R63, decision D6). -/
theorem one_le_toNat_le_three_iff {n : Nibble} :
    1 ≤ n.toNat ∧ n.toNat ≤ 3 ↔ ∃ r, n = regNibble r + immCmpBias := by
  have hshift : 1 ≤ n.toNat ∧ n.toNat ≤ 3 ↔ (n - immCmpBias).toNat ≤ 2 := by
    revert n
    decide
  simp only [hshift, toNat_le_two_iff, sub_eq_iff_eq_add]

/-- A row of format XY selects the words that decode to the operation with its high byte. -/
theorem xyRow_iff_decode {op : Reg → Reg → Instr} {hi : Byte} (henc : ∀ x y, encode (op x y) = encodeXY hi x y)
    (heff : ∀ x y v, op x y ≠ .nop v) (w : Word) :
    xyRow (packBytes hi 0) w = true ↔ ∃ x y, decode w = op x y := by
  simp only [decode_eq_iff_of_effective (heff _ _), henc, encodeXY_eq_iff]
  rw [xyRow_iff, toNat_le_two_iff, toNat_le_two_iff]
  simp only [exists_and_left, exists_and_right]

/-- The words with the top nibble and a selector of a KI operation are those that decode to it. -/
theorem kiFields_iff_decode {op : Reg → Byte → Instr} {top : Nibble} {sel : Reg → Nibble}
    (henc : ∀ k imm, encode (op k imm) = encodeKI top (sel k) imm) (heff : ∀ k imm v, op k imm ≠ .nop v) (w : Word) :
    (opField w = top ∧ ∃ k, k4Field w = sel k) ↔ ∃ k imm, decode w = op k imm := by
  simp only [decode_eq_iff_of_effective (heff _ _), henc, encodeKI_eq_iff, exists_and_left, exists_eq', and_true]

theorem haltRow_iff_decode (w : Word) : haltRow w = true ↔ ∃ lo, decode w = .halt lo :=
  (haltRow_iff w).trans (hiByte_eq_zero_iff w)

theorem loadRow_iff_decode (w : Word) : loadRow w = true ↔ ∃ k imm, decode w = .load k imm := by
  rw [loadRow_iff, toNat_le_two_iff]
  exact kiFields_iff_decode (fun _ _ => rfl) (by simp) w

theorem seiRow_iff_decode (w : Word) : immCmpRow 0x7000 w = true ↔ ∃ k imm, decode w = .sei k imm := by
  rw [show (0x7000 : Word) = packBytes (packNibbles 0x7 0) 0 by decide, immCmpRow_iff, one_le_toNat_le_three_iff]
  exact kiFields_iff_decode (fun _ _ => rfl) (by simp) w

theorem sneiRow_iff_decode (w : Word) : immCmpRow 0x8000 w = true ↔ ∃ k imm, decode w = .snei k imm := by
  rw [show (0x8000 : Word) = packBytes (packNibbles 0x8 0) 0 by decide, immCmpRow_iff, one_le_toNat_le_three_iff]
  exact kiFields_iff_decode (fun _ _ => rfl) (by simp) w

theorem addRow_iff_decode (w : Word) : xyRow 0x2000 w = true ↔ ∃ x y, decode w = .add x y :=
  xyRow_iff_decode (hi := 0x20) (fun _ _ => rfl) (by simp) w

theorem subRow_iff_decode (w : Word) : xyRow 0x3000 w = true ↔ ∃ x y, decode w = .sub x y :=
  xyRow_iff_decode (hi := 0x30) (fun _ _ => rfl) (by simp) w

theorem orRow_iff_decode (w : Word) : xyRow 0x4000 w = true ↔ ∃ x y, decode w = .or x y :=
  xyRow_iff_decode (hi := 0x40) (fun _ _ => rfl) (by simp) w

theorem andRow_iff_decode (w : Word) : xyRow 0x5000 w = true ↔ ∃ x y, decode w = .and x y :=
  xyRow_iff_decode (hi := 0x50) (fun _ _ => rfl) (by simp) w

theorem xorRow_iff_decode (w : Word) : xyRow 0x6000 w = true ↔ ∃ x y, decode w = .xor x y :=
  xyRow_iff_decode (hi := 0x60) (fun _ _ => rfl) (by simp) w

theorem serRow_iff_decode (w : Word) : xyRow 0x9000 w = true ↔ ∃ x y, decode w = .ser x y :=
  xyRow_iff_decode (hi := 0x90) (fun _ _ => rfl) (by simp) w

theorem snerRow_iff_decode (w : Word) : xyRow 0xA000 w = true ↔ ∃ x y, decode w = .sner x y :=
  xyRow_iff_decode (hi := 0xA0) (fun _ _ => rfl) (by simp) w

/-- A word that decodes to NOP is the word that NOP carries. -/
theorem eq_of_decode_eq_nop {w v : Word} (h : decode w = .nop v) : v = w := by
  simpa [h, encode] using encode_decode w

/-- NOP's row, every word no other row selects, is the words that decode to NOP (R160). -/
theorem nopRow_iff_decode (w : Word) : nopRow w = true ↔ decode w = .nop w := by
  rw [nopRow, Bool.not_eq_true', ← Bool.not_eq_true]
  simp only [effectiveRows, List.any_cons, List.any_nil, Bool.or_false, Bool.or_eq_true, haltRow_iff_decode,
    loadRow_iff_decode, addRow_iff_decode, subRow_iff_decode, orRow_iff_decode, andRow_iff_decode, xorRow_iff_decode,
    seiRow_iff_decode, sneiRow_iff_decode, serRow_iff_decode, snerRow_iff_decode]
  cases h : decode w with
  | nop v => simp [eq_of_decode_eq_nop h]
  | _ => simp

/-! ### The statements -/

/-- Settles O1: an effective operation decodes from its word, and a NOP's word is one of NOP's row. -/
theorem decodeOfEncodeIsIdentity : Obligations.DecodeOfEncodeIsIdentity := by
  intro i hwf
  have hword : decode (encode i) = i := by
    cases i with
    | nop w => exact (nopRow_iff_decode w).mp hwf
    | _ => exact decode_encode_of_effective nofun
  refine ⟨hword, fun rest => ?_⟩
  rw [encodeText, decodeText_ok (parseGroup_hexText _ rest), hword]

/-- Settles O2: decoding loses nothing, and a word decoded to NOP is one of NOP's row. -/
theorem encodeOfDecodeIsIdentity : Obligations.EncodeOfDecodeIsIdentity := by
  refine fun w => ⟨?_, encode_decode w⟩
  cases h : decode w with
  | nop v =>
    obtain rfl := eq_of_decode_eq_nop h
    exact (nopRow_iff_decode v).mpr h
  | _ => rfl

/-- Settles O5, row by row. -/
theorem decodeFollowsOpcodeTable : Obligations.DecodeFollowsOpcodeTable := fun w =>
  ⟨haltRow_iff_decode w, loadRow_iff_decode w, addRow_iff_decode w, subRow_iff_decode w, orRow_iff_decode w,
    andRow_iff_decode w, xorRow_iff_decode w, seiRow_iff_decode w, sneiRow_iff_decode w, serRow_iff_decode w,
    snerRow_iff_decode w, nopRow_iff_decode w⟩

/-- Settles O6 by running the decoder on the thirteen words. -/
theorem sampleWordsDecode : Obligations.SampleWordsDecode := by
  unfold Obligations.SampleWordsDecode
  decide

end Sys2Proof

/-! The statements about the fetch unit (40_fetch_unit.md): what the hex parser accepts and answers, what fetch answers
and what it looks at, and where the run of a text ends exhausted. -/

namespace Sys2Proof

open Machine (asciiDigit)

/-! ### The hex parser -/

/-- What the parser accepts of a whole group, and what it answers to it. -/
theorem parseGroup_four_eq_ok_iff {c0 c1 c2 c3 : Byte} {w : Word} :
    parseGroup [c0, c1, c2, c3] = .ok (w, []) ↔
      (isHex c0 = true ∧ isHex c1 = true ∧ isHex c2 = true ∧ isHex c3 = true) ∧ wordOfDigits c0 c1 c2 c3 = w := by
  have hdigits : (isHex c0 && isHex c1 && isHex c2 && isHex c3) = true ↔
      isHex c0 = true ∧ isHex c1 = true ∧ isHex c2 = true ∧ isHex c3 = true := by simp [and_assoc]
  rw [parseGroup_four, ← hdigits]
  split
  · next h => simp only [h, true_and, Except.ok.injEq, Prod.mk.injEq, and_true]
  · next h => simp only [h, reduceCtorEq, Bool.false_eq_true, false_and]

/-- A group parses to some word exactly if it is made of digits, whatever they spell (R84). -/
theorem exists_parseGroup_four_eq_ok_iff {c0 c1 c2 c3 : Byte} :
    (∃ w, parseGroup [c0, c1, c2, c3] = .ok (w, [])) ↔
      (isHex c0 = true ∧ isHex c1 = true ∧ isHex c2 = true ∧ isHex c3 = true) := by
  simp only [parseGroup_four_eq_ok_iff, exists_and_left, exists_eq', and_true]

/-- The text of the word that four digits spell is those digits. -/
theorem hexText_wordOfDigits {c0 c1 c2 c3 : Byte} (h0 : isHex c0 = true) (h1 : isHex c1 = true)
    (h2 : isHex c2 = true) (h3 : isHex c3 = true) : hexText (wordOfDigits c0 c1 c2 c3) = [c0, c1, c2, c3] := by
  simp [hexText, wordOfDigits, hexDigit_hexVal, h0, h1, h2, h3]

/-- A group of four characters that parses to a word is the text of that word. -/
theorem eq_hexText_of_parseGroup {text : List Byte} {w : Word} (hlen : text.length = 4)
    (h : parseGroup text = .ok (w, [])) : text = hexText w := by
  obtain ⟨c0, c1, c2, c3, rfl⟩ := List.length_eq_four.mp hlen
  obtain ⟨⟨h0, h1, h2, h3⟩, rfl⟩ := parseGroup_four_eq_ok_iff.mp h
  exact (hexText_wordOfDigits h0 h1 h2 h3).symm

/-- Settles O3: the one group that parses to a word is the word's text. -/
theorem parserIsBijection : Obligations.ParserIsBijection := by
  refine ⟨fun _ _ _ _ => exists_parseGroup_four_eq_ok_iff, fun w => ⟨hexText w, rfl, ?_, ?_⟩⟩
  · simpa using parseGroup_hexText w []
  · exact fun _ => eq_hexText_of_parseGroup

/-- The digits by their codes (R82). -/
theorem isHex_iff {c : Byte} :
    isHex c = true ↔ (0x30 ≤ c.toNat ∧ c.toNat ≤ 0x39) ∨ (0x41 ≤ c.toNat ∧ c.toNat ≤ 0x46) := by
  simp [isHex]

/-- The value of a digit by its code (R83). -/
theorem hexVal_toNat {c : Byte} (h : isHex c = true) : (hexVal c).toNat = asciiDigit c := by
  rw [isHex_iff] at h
  unfold hexVal asciiDigit
  split
  · rw [BitVec.toNat_ofNat]
    omega
  · rw [BitVec.toNat_ofNat]
    omega

/-- The word of four digits is the number they spell in base 16 (R44, decision D16). -/
theorem wordOfDigits_toNat (c0 c1 c2 c3 : Byte) :
    (wordOfDigits c0 c1 c2 c3).toNat =
      4096 * (hexVal c0).toNat + 256 * (hexVal c1).toNat + 16 * (hexVal c2).toNat + (hexVal c3).toNat := by
  simp only [wordOfDigits, packBytes_toNat, packNibbles_toNat]
  omega

/-- Settles O4: digits are known by their codes, and the word is their values in base 16. -/
theorem parserReadsAsciiDigitsInOrder : Obligations.ParserReadsAsciiDigitsInOrder := by
  refine fun c0 c1 c2 c3 => ⟨?_, fun w h => ?_⟩
  · simp [exists_parseGroup_four_eq_ok_iff, isHex_iff]
  · obtain ⟨⟨h0, h1, h2, h3⟩, rfl⟩ := parseGroup_four_eq_ok_iff.mp h
    rw [wordOfDigits_toNat, hexVal_toNat h0, hexVal_toNat h1, hexVal_toNat h2, hexVal_toNat h3]

end Sys2Proof

namespace Sys2Proof.Machine

/-! ### Fetch -/

/-- Settles O7: the bytes of the fetched word are its pairs of digits, the first digit of each the high nibble. -/
theorem fetchTakesWellFormedGroup : Obligations.FetchTakesWellFormedGroup := by
  refine fun s => ⟨fun hg => ⟨wordAtCursor s, fetch_eq_some hg, ?_, ?_⟩, fetch_eq_none⟩
  · rw [wordAtCursor, wordOfDigits, hiByte_packBytes, packNibbles_toNat]
  · rw [wordAtCursor, wordOfDigits, loByte_packBytes, packNibbles_toNat]

theorem fetch_eq_none_iff {s : State} : s.fetch = none ↔ ¬ GroupAtCursor s := by
  refine ⟨fun h hg => ?_, fetch_eq_none⟩
  simp [fetch_eq_some hg] at h

section SameGroup

variable {s t : State} (hcursor : t.cursor = s.cursor)
  (hchars : ∀ p, s.cursor ≤ p → p < s.cursor + 4 → p < s.streamLen → Memory.read t.stream p = Memory.read s.stream p)

include hcursor hchars

/-- Whether a well-formed group stands at the cursor depends on the length and the characters there within it. -/
theorem groupAtCursor_congr (hlen : t.streamLen = s.streamLen) : GroupAtCursor t ↔ GroupAtCursor s := by
  unfold GroupAtCursor
  rw [hcursor, hlen]
  refine and_congr_right fun hroom => forall₂_congr fun j hj => ?_
  rw [hchars (s.cursor + j) (by omega) (by omega) (by omega)]

/-- Where four characters stand at the cursor, the word they spell depends on them alone. -/
theorem wordAtCursor_congr (hroom : s.cursor + 4 ≤ s.streamLen) : wordAtCursor t = wordAtCursor s := by
  have hsame : ∀ j < 4, Memory.read t.stream (s.cursor + j) = Memory.read s.stream (s.cursor + j) :=
    fun j hj => hchars (s.cursor + j) (by omega) (by omega) (by omega)
  have hfirst : Memory.read t.stream s.cursor = Memory.read s.stream s.cursor := hsame 0 (by omega)
  rw [wordAtCursor, hcursor, hfirst, hsame 1 (by omega), hsame 2 (by omega), hsame 3 (by omega), wordAtCursor]

end SameGroup

/-- Settles O8: the two states have the same group at the cursor, or none. -/
theorem fetchDependsOnGroupAlone : Obligations.FetchDependsOnGroupAlone := by
  intro s t hcursor hlen hchars
  have hgroup := groupAtCursor_congr hcursor hchars hlen
  rcases fetch_cases s with ⟨hg, hs⟩ | ⟨hg, hs⟩
  · rw [hs, fetch_eq_some (hgroup.mpr hg), Option.map_some, Option.map_some,
      wordAtCursor_congr hcursor hchars hg.1]
  · rw [hs, fetch_eq_none (mt hgroup.mp hg)]

/-! ### The end of a run -/

/-- A group at the cursor over the stream of a text is four digits of the text. -/
theorem groupAtCursor_iff_of_text {s : State} {text : List Byte} (hstream : s.stream = Memory.ofText text)
    (hlen : s.streamLen = text.length) :
    GroupAtCursor s ↔ s.cursor + 4 ≤ text.length ∧
      ∀ p (h : p < text.length), s.cursor ≤ p → p < s.cursor + 4 → isHex text[p] = true := by
  unfold GroupAtCursor
  rw [hstream, hlen]
  refine and_congr_right fun hroom => ⟨fun h p hp hle hlt => ?_, fun h j hj => ?_⟩
  · rw [← Memory.read_ofText text p hp, ← Nat.add_sub_cancel' hle]
    exact h (p - s.cursor) (by omega)
  · rw [Memory.read_ofText text (s.cursor + j) (by omega)]
    exact h (s.cursor + j) (by omega) (by omega) (by omega)

/-- Every state that a run of a text reaches meets the invariant. -/
theorem takeSteps_launch_inv {text : List Byte} {n : Nat} {t : State}
    (h : takeSteps n (State.launch text) = .next t) : t.Inv :=
  takeSteps_keeps stepKeepsInvariant (State.inv_launch text) h

/-- Settles O27: the invariant of the run says that all before the cursor is whole groups and that fetch fails there. -/
theorem exhaustedRunConsumedLongestPrefix : Obligations.ExhaustedRunConsumedLongestPrefix := by
  intro text n t h hrun
  have hinv : t.Inv := takeSteps_launch_inv h
  obtain ⟨hstream, hlen⟩ : t.stream = Memory.ofText text ∧ t.streamLen = text.length := takeSteps_stream h
  refine ⟨hinv.aligned, hlen ▸ hinv.bounded, fun p hp hlt => ?_, ?_⟩
  · rw [← Memory.read_ofText text p hp]
    exact hstream ▸ hinv.consumed p hlt
  · rw [← groupAtCursor_iff_of_text hstream hlen]
    exact fetch_eq_none_iff.mp (hinv.exhausted hrun)

end Sys2Proof.Machine

/-! The statements about execute (41_execute_sequencing.md): the skip check before dispatch, what execute answers and what
it is blind to, when it halts, and the invalid register indices of format XY. -/

namespace Sys2Proof.Machine

/-! ### The skip check -/

theorem execute_of_skip {s : State} (hk : s.skip = true) (w : Word) : execute w s = .next s.consumeSkip :=
  if_pos hk

theorem execute_of_no_skip {s : State} (hk : s.skip = false) (w : Word) : execute w s = exec (decode w) s :=
  if_neg (Bool.eq_false_iff.mp hk)

/-- Settles O10: the two branches of execute, the first of them with the cursor already past the group. -/
theorem pendingSkipConsumesOneInstruction : Obligations.PendingSkipConsumesOneInstruction := by
  refine ⟨fun w s hk => execute_of_skip hk w, fun w s hk => execute_of_no_skip hk w, fun s hr hk hg => ?_⟩
  rw [step_of_group hr hg]
  exact execute_of_skip (s := s.setCursor (s.cursor + 4)) hk (wordAtCursor s)

theorem execute_eq_effect {s : State} (hk : s.skip = false) (w : Word) : execute w s = .next (effect (decode w) s) :=
  (execute_of_no_skip hk w).trans (exec_eq_effect (decode w) s)

/-- Settles O13: execute consumes a skip, which writes the flag alone, or has one instruction's effect. -/
theorem executeIsTotal : Obligations.ExecuteIsTotal := by
  intro w s
  rcases Bool.eq_false_or_eq_true s.skip with hk | hk
  · refine ⟨s.consumeSkip, execute_of_skip hk w, .inl rfl, rfl, rfl, rfl, fun c m l => ?_⟩
    exact execute_of_skip (s := { s with cursor := c, stream := m, streamLen := l }) hk w
  · refine ⟨effect (decode w) s, execute_eq_effect hk w, (effect_run (decode w) s).imp_right And.right,
      effect_cursor _ _, effect_stream _ _, effect_streamLen _ _, fun c m l => ?_⟩
    rw [← effect_otherFetchSide]
    exact execute_eq_effect (s := { s with cursor := c, stream := m, streamLen := l }) hk w

/-! ### The halt detector -/

/-- Of instructions HALT alone ends a run that goes on. -/
theorem effect_run_halted_iff {i : Instr} {s : State} (hr : s.run = .running) :
    (effect i s).run = .halted ↔ ∃ lo, i = .halt lo := by
  cases i with
  | halt lo => simp [effect]
  | _ => simp [effect, hr]

theorem haltDetector_iff {w : Word} {s : State} : haltDetector w s = true ↔ s.skip = false ∧ hiByte w = 0x00 := by
  simp [haltDetector]

/-- From `RUN` execute ends the run exactly when the halt detector says so. -/
theorem execute_run_halted_iff {w : Word} {s t : State} (hr : s.run = .running) (h : execute w s = .next t) :
    t.run = .halted ↔ haltDetector w s = true := by
  rw [haltDetector_iff]
  cases hk : s.skip with
  | true =>
    rw [execute_of_skip hk] at h
    cases h
    simp [hr]
  | false =>
    rw [execute_eq_effect hk] at h
    cases h
    rw [effect_run_halted_iff hr, hiByte_eq_zero_iff, eq_self_iff_true, true_and]

/-- Settles O14: a step with a fetched word is the execute of that word, and one without ends the run exhausted. -/
theorem onlyExecutedHaltHalts : Obligations.OnlyExecutedHaltHalts := by
  refine ⟨fun w s t => execute_run_halted_iff, fun s t h => ?_⟩
  have hr : s.run = .running := (step_cases h).1
  rcases fetch_cases s with ⟨hg, hfetch⟩ | ⟨hg, hfetch⟩
  · rw [step_of_group hr hg] at h
    rw [execute_run_halted_iff (s := s.setCursor (s.cursor + 4)) hr h, haltDetector_iff]
    simp [hfetch]
  · rw [step_of_no_group hr hg] at h
    cases h
    simp [hfetch]

/-! ### Invalid register indices -/

/-- A word of format XY written as a number is its high byte and its two index fields (R8, R62). -/
theorem xyWord_eq_packBytes {x y : Nat} (hi : Nat) (hx : x < 16) (hy : y < 16) :
    xyWord hi x y = packBytes (BitVec.ofNat 8 hi) (packNibbles (BitVec.ofNat 4 x) (BitVec.ofNat 4 y)) := by
  apply BitVec.eq_of_toNat_eq
  rw [packBytes_toNat, packNibbles_toNat]
  simp only [xyWord, BitVec.toNat_ofNat]
  omega

/-- The seven high bytes of format XY are those of the seven operations on two registers (R103). -/
theorem decode_eq_decodeXY {hi : Nat} (hhi : hi ∈ xyHighBytes) {w : Word} (hw : hiByte w = BitVec.ofNat 8 hi) :
    ∃ op : Reg → Reg → Instr, (∀ x y v, op x y ≠ .nop v) ∧ decode w = decodeXY op w := by
  have hop := (hiByte_eq_iff.mp hw).1
  simp only [xyHighBytes, List.mem_cons, List.not_mem_nil, or_false] at hhi
  obtain rfl | rfl | rfl | rfl | rfl | rfl | rfl := hhi
  · exact ⟨.add, by simp, by simp [decode, hw, hop]⟩
  · exact ⟨.sub, by simp, by simp [decode, hw, hop]⟩
  · exact ⟨.or, by simp, by simp [decode, hw, hop]⟩
  · exact ⟨.and, by simp, by simp [decode, hw, hop]⟩
  · exact ⟨.xor, by simp, by simp [decode, hw, hop]⟩
  · exact ⟨.ser, by simp, by simp [decode, hw, hop]⟩
  · exact ⟨.sner, by simp, by simp [decode, hw, hop]⟩

/-- A decode of format XY gives NOP exactly if a field names no register (R106). -/
theorem decodeXY_eq_nop_iff {op : Reg → Reg → Instr} (heff : ∀ x y v, op x y ≠ .nop v) {w : Word} :
    decodeXY op w = .nop w ↔ 2 < (xField w).toNat ∨ 2 < (yField w).toNat := by
  rcases decodeXY_cases op w with ⟨x, y, hx, hy, e⟩ | ⟨hrange, e⟩
  · have hxr : (xField w).toNat ≤ 2 := toNat_le_two_iff.mpr ⟨x, hx⟩
    have hyr : (yField w).toNat ≤ 2 := toNat_le_two_iff.mpr ⟨y, hy⟩
    rw [e]
    exact iff_of_false (heff x y w) (by omega)
  · exact iff_of_true e hrange

/-- A word of format XY is a no-op exactly if an index is above 2 (R106). -/
theorem decode_xyWord_eq_nop_iff {hi x y : Nat} (hhi : hi ∈ xyHighBytes) (hx : x < 16) (hy : y < 16) :
    decode (xyWord hi x y) = .nop (xyWord hi x y) ↔ 2 < x ∨ 2 < y := by
  have hw := xyWord_eq_packBytes hi hx hy
  obtain ⟨op, heff, hdecode⟩ := decode_eq_decodeXY hhi (w := xyWord hi x y) (by rw [hw, hiByte_packBytes])
  rw [hdecode, decodeXY_eq_nop_iff heff, hw, xField_packBytes, yField_packBytes, BitVec.toNat_ofNat,
    BitVec.toNat_ofNat, Nat.mod_eq_of_lt hx, Nat.mod_eq_of_lt hy]

/-- Settles O33: such a word decodes to NOP exactly if an index is invalid, and NOP changes nothing. -/
theorem invalidIndexDoesNothing : Obligations.InvalidIndexDoesNothing := by
  intro hi hhi x y hx hy
  have hnop := decode_xyWord_eq_nop_iff hhi hx hy
  refine ⟨fun hrange s hk => ?_, fun hxr hyr hdecode => ?_⟩
  · rw [execute_eq_effect hk, hnop.mpr hrange, effect]
  · have hrange := hnop.mp hdecode
    omega

end Sys2Proof.Machine

/-! The statements about HALT and LOAD (42_halt_load.md): their words written as numbers, what each leaves behind, and the
LOAD words whose index names no register. -/

namespace Sys2Proof.Machine

/-! ### Words with an immediate -/

theorem hiLoWord_eq_packBytes (hi : Nat) (lo : Byte) : hiLoWord hi lo = packBytes (BitVec.ofNat 8 hi) lo := by
  have hlo := lo.isLt
  apply BitVec.eq_of_toNat_eq
  rw [packBytes_toNat]
  simp only [hiLoWord, BitVec.toNat_ofNat]
  omega

/-- A word of format KI written as a number is its top nibble, its selector and its immediate (R8, R62). -/
theorem hiLoWord_eq_encodeKI (top : Nat) {k : Nat} (hk : k < 16) (imm : Byte) :
    hiLoWord (16 * top + k) imm = encodeKI (BitVec.ofNat 4 top) (BitVec.ofNat 4 k) imm := by
  rw [hiLoWord_eq_packBytes, encodeKI]
  congr 1
  apply BitVec.eq_of_toNat_eq
  rw [packNibbles_toNat]
  simp only [BitVec.toNat_ofNat]
  omega

theorem ofNat_regIndex (r : Reg) : BitVec.ofNat 4 (regIndex r) = regNibble r := by
  cases r <;> rfl

theorem regIndex_lt (r : Reg) : regIndex r < 3 := by
  cases r <;> decide

/-! ### HALT -/

theorem decode_haltWord (lo : Byte) : decode (hiLoWord 0x00 lo) = .halt lo := by
  have hword : hiLoWord 0x00 lo = encode (.halt lo) := hiLoWord_eq_packBytes 0x00 lo
  rw [hword, decode_encode_of_effective (by simp)]

theorem State.halt_result (s : State) :
    s.halt.result = some (.report (s.getReg .r0) (s.getReg .r1) (s.getReg .r2)) := rfl

theorem State.consumeSkip_fetchSide (s : State) : FetchSideSame s s.consumeSkip := ⟨rfl, rfl, fun _ => rfl⟩

/-- Settles O29: HALT writes the run state alone, and a skipped word writes the flag alone. -/
theorem haltEndsRunAndReports : Obligations.HaltEndsRunAndReports := by
  refine fun lo => ⟨decode_haltWord lo, fun s => ?_, fun s hk => ?_⟩
  · exact ⟨s.halt, exec_eq_effect (.halt lo) s, State.halt_run s, State.halt_getReg s, State.halt_skip s,
      effect_fetchSide (.halt lo) s, State.halt_result s⟩
  · exact ⟨s.consumeSkip, execute_of_skip hk _, State.consumeSkip_run s, State.consumeSkip_getReg s,
      State.consumeSkip_skip s, State.consumeSkip_fetchSide s⟩

/-! ### LOAD -/

theorem decode_loadWord (k : Reg) (imm : Byte) : decode (hiLoWord (0x10 + regIndex k) imm) = .load k imm := by
  have hk := regIndex_lt k
  have hword : hiLoWord (0x10 + regIndex k) imm = encode (.load k imm) := by
    rw [encode, ← ofNat_regIndex]
    exact hiLoWord_eq_encodeKI 1 (by omega) imm
  rw [hword, decode_encode_of_effective (by simp)]

theorem State.onlyRegisterWritten_setReg (s : State) (r : Reg) (v : Byte) :
    OnlyRegisterWritten s (s.setReg r v) r v where
  written := by simp
  others := fun q hq => by simp [hq]
  skip := rfl
  run := rfl
  fetchSide := ⟨rfl, rfl, fun _ => rfl⟩

/-- Settles O30: LOAD is one register write. -/
theorem loadWritesImmediate : Obligations.LoadWritesImmediate := fun k imm =>
  ⟨decode_loadWord k imm, fun s =>
    ⟨s.setReg k imm, exec_eq_effect (.load k imm) s, State.onlyRegisterWritten_setReg s k imm⟩⟩

/-- A decode of format KI gives NOP exactly if the selector names no register (R107). -/
theorem decodeKI_eq_nop_iff {op : Reg → Byte → Instr} (heff : ∀ r imm v, op r imm ≠ .nop v) {k : Nibble} {w : Word} :
    decodeKI op k w = .nop w ↔ 2 < k.toNat := by
  rcases decodeKI_cases op k w with ⟨r, hr, e⟩ | ⟨hrange, e⟩
  · have hkr : k.toNat ≤ 2 := toNat_le_two_iff.mpr ⟨r, hr⟩
    rw [e]
    exact iff_of_false (heff r _ w) (by omega)
  · exact iff_of_true e hrange

theorem decode_of_opField_one {w : Word} (h : opField w = 0x1) : decode w = decodeKI .load (k4Field w) w := by
  simp [decode, hiByte_eq_iff, h]

/-- A word with the top nibble of LOAD is a no-op exactly if its index is above 2 (R117). -/
theorem decode_loadWord_eq_nop_iff {k : Nat} (hk : k < 16) (lo : Byte) :
    decode (hiLoWord (0x10 + k) lo) = .nop (hiLoWord (0x10 + k) lo) ↔ 2 < k := by
  have hword : hiLoWord (0x10 + k) lo = encodeKI 0x1 (BitVec.ofNat 4 k) lo := hiLoWord_eq_encodeKI 1 hk lo
  obtain ⟨hop, hk4⟩ := encodeKI_opField_k4Field 0x1 (BitVec.ofNat 4 k) lo
  rw [hword, decode_of_opField_one hop, decodeKI_eq_nop_iff (by simp), hk4, BitVec.toNat_ofNat, Nat.mod_eq_of_lt hk]

/-- Settles O31: such a word has the top nibble of LOAD and an index above 2, so it decodes to NOP. -/
theorem loadOutOfRangeDoesNothing : Obligations.LoadOutOfRangeDoesNothing := by
  intro hi lo hlow hhigh s hk
  obtain ⟨k, rfl⟩ : ∃ k, hi = 0x10 + k := Nat.exists_eq_add_of_le (by omega)
  have hnop := (decode_loadWord_eq_nop_iff (k := k) (by omega) lo).mpr (by omega)
  rw [execute_eq_effect hk, hnop, effect]

end Sys2Proof.Machine

/-! The statements about ADD and SUB (43_arithmetic.md): their words written as numbers, what the two register writes leave
behind, and the exact sum and difference that result and flag hold together. -/

namespace Sys2Proof.Machine

/-! ### Words with two registers -/

/-- A word of format XY written as a number from two register indices is the encoder's (R8, R62). -/
theorem xyWord_eq_encodeXY (hi : Nat) (x y : Reg) :
    xyWord hi (regIndex x) (regIndex y) = encodeXY (BitVec.ofNat 8 hi) x y := by
  have hx := regIndex_lt x
  have hy := regIndex_lt y
  rw [xyWord_eq_packBytes hi (by omega) (by omega), ofNat_regIndex, ofNat_regIndex, encodeXY]

/-- An effective operation of format XY is decoded from its high byte and the indices of its registers. -/
theorem decode_xyWord {i : Instr} {hi : Nat} {x y : Reg} (heff : ∀ v, i ≠ .nop v)
    (henc : encode i = encodeXY (BitVec.ofNat 8 hi) x y) : decode (xyWord hi (regIndex x) (regIndex y)) = i := by
  rw [xyWord_eq_encodeXY, ← henc, decode_encode_of_effective heff]

/-! ### The destination write and the flag write -/

/-- A destination other than register 2 keeps its result past the flag write. -/
theorem State.writeBack_getReg_destination (s : State) {x : Reg} (hx : x ≠ .r2) (v : Byte) (flag : Bool) :
    (s.writeBack x v flag).getReg x = v := by
  simp [hx]

theorem State.writeBack_getReg_r2_toNat (s : State) (x : Reg) (v : Byte) (flag : Bool) :
    ((s.writeBack x v flag).getReg .r2).toNat = if flag then 1 else 0 := by
  rw [State.writeBack_getReg, if_pos rfl, flagByte_toNat]

/-- The two writes change the destination and register 2 alone. -/
theorem State.writeBack_frame (s : State) (x : Reg) (v : Byte) (flag : Bool) :
    (∀ q, q ≠ x → q ≠ .r2 → (s.writeBack x v flag).getReg q = s.getReg q) ∧
      (s.writeBack x v flag).skip = s.skip ∧ (s.writeBack x v flag).run = s.run ∧
      FetchSideSame s (s.writeBack x v flag) :=
  ⟨fun q hx h2 => by simp [hx, h2], rfl, rfl, rfl, rfl, fun _ => rfl⟩

/-! ### The statements -/

/-- Settles O34: ADD is the destination write of the sum and the flag write of the carry. -/
theorem addWritesSumAndCarry : Obligations.AddWritesSumAndCarry := by
  refine fun x y hx => ⟨decode_xyWord (by simp) rfl, fun s => ?_⟩
  refine ⟨effect (.add x y) s, exec_eq_effect (.add x y) s, ?_, ?_, State.writeBack_frame s x _ _⟩
  · rw [effect, State.writeBack_getReg_destination s hx, sumByte_toNat]
  · rw [effect, State.writeBack_getReg_r2_toNat, sumCarry_eq]
    simp only [decide_eq_true_eq, ge_iff_le]

/-- Settles O35: SUB is the destination write of the difference and the flag write of the borrow. -/
theorem subWritesDifferenceAndBorrow : Obligations.SubWritesDifferenceAndBorrow := by
  refine fun x y hx => ⟨decode_xyWord (by simp) rfl, fun s => ?_⟩
  refine ⟨effect (.sub x y) s, exec_eq_effect (.sub x y) s, ?_, ?_, State.writeBack_frame s x _ _⟩
  · rw [effect, State.writeBack_getReg_destination s hx, diffByte_toNat]
  · rw [effect, State.writeBack_getReg_r2_toNat, diffBorrow_eq]
    simp only [decide_eq_true_eq]

/-- Settles O37: the flag is the one multiple of 256 that the reduction of a sum or difference of two bytes loses. -/
theorem resultAndFlagHoldExactValue : Obligations.ResultAndFlagHoldExactValue := by
  intro x y s hx
  have ha := (s.getReg x).isLt
  have hb := (s.getReg y).isLt
  obtain ⟨t, hadd, hsum, hcarry, -⟩ := (addWritesSumAndCarry x y hx).2 s
  obtain ⟨u, hsub, hdiff, hborrow, -⟩ := (subWritesDifferenceAndBorrow x y hx).2 s
  refine ⟨⟨t, hadd, ?_⟩, ⟨u, hsub, ?_⟩⟩
  · rw [hsum, hcarry]
    split <;> omega
  · rw [hdiff, hborrow]
    split <;> omega

end Sys2Proof.Machine

/-! The statements about OR, AND and XOR (44_logic.md): each is one register write of the result taken bit by bit, and no
flag is written (R138). -/

namespace Sys2Proof.Machine

/-- Settles O38: OR is one write of the bitwise or to its first register. -/
theorem orWritesBitwiseOr : Obligations.OrWritesBitwiseOr := by
  refine fun x y => ⟨decode_xyWord (by simp) rfl, fun s => ?_⟩
  exact ⟨effect (.or x y) s, s.getReg x ||| s.getReg y, exec_eq_effect (.or x y) s,
    State.onlyRegisterWritten_setReg s x _, fun _ _ => BitVec.getLsbD_or⟩

/-- Settles O39: AND is one write of the bitwise and to its first register. -/
theorem andWritesBitwiseAnd : Obligations.AndWritesBitwiseAnd := by
  refine fun x y => ⟨decode_xyWord (by simp) rfl, fun s => ?_⟩
  exact ⟨effect (.and x y) s, s.getReg x &&& s.getReg y, exec_eq_effect (.and x y) s,
    State.onlyRegisterWritten_setReg s x _, fun _ _ => BitVec.getLsbD_and⟩

/-- Settles O40: XOR is one write of the bitwise exclusive or to its first register, and a byte cancels with itself. -/
theorem xorWritesBitwiseXor : Obligations.XorWritesBitwiseXor := by
  refine fun x y => ⟨decode_xyWord (by simp) rfl, fun s => ?_⟩
  refine ⟨effect (.xor x y) s, s.getReg x ^^^ s.getReg y, exec_eq_effect (.xor x y) s,
    State.onlyRegisterWritten_setReg s x _, fun _ _ => BitVec.getLsbD_xor, ?_⟩
  rintro rfl
  exact BitVec.xor_self

end Sys2Proof.Machine

/-! The statements about SEI, SNEI, SER and SNER (45_skip.md): their words written as numbers, and the Pending-Skip flag,
which is all that they write (R149). -/

namespace Sys2Proof.Machine

/-! ### Words of the immediate comparisons -/

/-- The selector of an immediate comparison is one above the index of its register (R63; decision D6). -/
theorem ofNat_one_add_regIndex (k : Reg) : BitVec.ofNat 4 (1 + regIndex k) = regNibble k + immCmpBias := by
  cases k <;> rfl

/-- An immediate comparison is decoded from its top nibble, its register's index plus one and its immediate. -/
theorem decode_immCmpWord {i : Instr} (top : Nat) {k : Reg} {imm : Byte} (heff : ∀ v, i ≠ .nop v)
    (henc : encode i = encodeKI (BitVec.ofNat 4 top) (regNibble k + immCmpBias) imm) :
    decode (hiLoWord (16 * top + 1 + regIndex k) imm) = i := by
  have hk := regIndex_lt k
  rw [Nat.add_assoc, hiLoWord_eq_encodeKI top (by omega), ofNat_one_add_regIndex, ← henc,
    decode_encode_of_effective heff]

/-! ### The flag write -/

/-- An instruction that writes no register and does not halt can set the Pending-Skip flag and nothing else (R149). -/
theorem onlySkipSet_effect {i : Instr} (hwrites : writesOf i = []) (hhalt : ∀ lo, i ≠ .halt lo) (s : State) :
    OnlySkipSet s (effect i s) (SkipTaken s i) where
  skip := effect_skip i s
  registers := fun q => effect_getReg_of_not_mem (by simp [hwrites])
  run := (effect_run i s).resolve_right fun ⟨⟨lo, h⟩, _⟩ => hhalt lo h
  fetchSide := effect_fetchSide i s

/-- With no skip pending, of two instructions with opposite conditions exactly one sets the flag. -/
theorem OnlySkipSet.skip_iff_of_not {s t u : State} {condition : Prop} (hk : s.skip = false)
    (ht : OnlySkipSet s t (¬ condition)) (hu : OnlySkipSet s u condition) : t.skip = true ↔ u.skip = false := by
  rw [ht.skip, ← Bool.not_eq_true, hu.skip, hk]
  simp

/-- A condition that fails leaves the flag alone. -/
theorem OnlySkipSet.skip_eq_of_not {s t : State} {condition : Prop} (h : OnlySkipSet s t condition)
    (hc : ¬ condition) : t.skip = s.skip := by
  rw [Bool.eq_iff_iff, h.skip, or_iff_right hc]

/-! ### The statements -/

/-- Settles O41: SEI writes the flag alone, and its condition is equality with the immediate. -/
theorem seiSetsSkipIfEqual : Obligations.SeiSetsSkipIfEqual := by
  refine fun k imm => ⟨decode_immCmpWord 7 (by simp) rfl, fun s => ?_⟩
  exact ⟨effect (.sei k imm) s, exec_eq_effect (.sei k imm) s, onlySkipSet_effect rfl (by simp) s⟩

/-- Settles O42: SNEI writes the flag alone, and its condition is the opposite of that of SEI. -/
theorem sneiSetsSkipIfNotEqual : Obligations.SneiSetsSkipIfNotEqual := by
  refine fun k imm => ⟨decode_immCmpWord 8 (by simp) rfl, fun s => ?_⟩
  have hsnei : OnlySkipSet s (effect (.snei k imm) s) (s.getReg k ≠ imm) := onlySkipSet_effect rfl (by simp) s
  have hsei : OnlySkipSet s (effect (.sei k imm) s) (s.getReg k = imm) := onlySkipSet_effect rfl (by simp) s
  exact ⟨effect (.snei k imm) s, exec_eq_effect (.snei k imm) s, hsnei, fun hk =>
    ⟨effect (.sei k imm) s, exec_eq_effect (.sei k imm) s, hsnei.skip_iff_of_not hk hsei⟩⟩

/-- Settles O43: SER writes the flag alone, and a register equals itself. -/
theorem serSetsSkipIfEqual : Obligations.SerSetsSkipIfEqual := by
  refine fun x y => ⟨decode_xyWord (by simp) rfl, fun s => ?_⟩
  have hser : OnlySkipSet s (effect (.ser x y) s) (s.getReg x = s.getReg y) := onlySkipSet_effect rfl (by simp) s
  exact ⟨effect (.ser x y) s, exec_eq_effect (.ser x y) s, hser, fun hxy =>
    hser.skip.mpr (.inl (congrArg s.getReg hxy))⟩

/-- Settles O44: SNER writes the flag alone, and a register does not differ from itself. -/
theorem snerSetsSkipIfNotEqual : Obligations.SnerSetsSkipIfNotEqual := by
  refine fun x y => ⟨decode_xyWord (by simp) rfl, fun s => ?_⟩
  have hsner : OnlySkipSet s (effect (.sner x y) s) (s.getReg x ≠ s.getReg y) := onlySkipSet_effect rfl (by simp) s
  exact ⟨effect (.sner x y) s, exec_eq_effect (.sner x y) s, hsner, fun hxy =>
    hsner.skip_eq_of_not (not_not_intro (congrArg s.getReg hxy))⟩

end Sys2Proof.Machine

/-! The statement about NOP (46_nop.md): it has no effect, and the words above every listed opcode are its words. -/

namespace Sys2Proof.Machine

/-- The top nibbles of the opcode table end at 0xA, so every test of the decoder fails on a greater one (R65, R163). -/
theorem decode_eq_nop_of_opField {w : Word} (hop : 0xB ≤ (opField w).toNat) : decode w = .nop w := by
  have hne (n : Nibble) (hn : n.toNat < 0xB) : opField w ≠ n := by
    rintro rfl
    omega
  simp [decode, hiByte_eq_iff, hne]

/-- The top nibble of a word written as a high and a low byte is that of the high byte (R61). -/
theorem opField_hiLoWord_toNat {hi : Nat} (hhi : hi ≤ 0xFF) (lo : Byte) :
    (opField (hiLoWord hi lo)).toNat = hi / 16 := by
  have hlo := lo.isLt
  rw [opField_toNat, hiLoWord, BitVec.toNat_ofNat]
  omega

/-- Settles O32: NOP's effect is the identity, and a high byte from 0xB0 up has a top nibble above the table's. -/
theorem nopChangesNothing : Obligations.NopChangesNothing := by
  refine ⟨fun w s => exec_eq_effect (.nop w) s, fun hi lo hlow hhigh => decode_eq_nop_of_opField ?_⟩
  rw [opField_hiLoWord_toNat hhigh]
  omega

end Sys2Proof.Machine

/-! The statements about the step and the run (50_interfaces.md): what a step does in each run state, that every run ends
within its bound, and what the host is answered at the end. -/

namespace Sys2Proof.Machine

/-! ### The step -/

/-- Settles O9: four characters that decode are a well-formed group, and its word's decode is the instruction. -/
theorem stepRunsDecodedInstruction : Obligations.StepRunsDecodedInstruction := by
  intro s i hr hk hroom htext
  obtain ⟨w, hparse, rfl⟩ := decodeText_eq_ok htext
  obtain ⟨hg, rfl⟩ := group_of_parseGroup hroom hparse
  refine ⟨(encodeOfDecodeIsIdentity _).1, ?_⟩
  rw [step_of_group hr hg]
  exact execute_of_no_skip (s := s.setCursor (s.cursor + 4)) hk (wordAtCursor s)

/-- Settles O11: the end of the run moves neither cursor nor stream, so the group that was missing is missing still. -/
theorem unavailableEndsTheRun : Obligations.UnavailableEndsTheRun := fun s hr hg =>
  ⟨step_of_no_group hr hg, fetch_eq_none (s := s.exhaust) hg⟩

/-- In `RUN` a step has a next state, with a group at the cursor or without one. -/
theorem exists_step_of_running {s : State} (hr : s.run = .running) : ∃ t, step s = .next t := by
  by_cases hg : GroupAtCursor s
  · exact ⟨_, (step_of_group hr hg).trans (execute_eq _ _)⟩
  · exact ⟨_, step_of_no_group hr hg⟩

/-- Settles O12, run state by run state. -/
theorem stepExistsExactlyInRun : Obligations.StepExistsExactlyInRun := by
  intro s
  cases hr : s.run with
  | running =>
    obtain ⟨t, ht⟩ := exists_step_of_running hr
    simp [ht]
  | halted => simp [step_halted hr]
  | exhausted => simp [step_exhausted hr]

/-! ### The end of a run -/

/-- Where at most `k` whole groups remain the run is over within `k + 1` steps: each step that does not end it takes one. -/
theorem exists_end_of_room (k : Nat) {s : State} (hr : s.run = .running)
    (hroom : s.streamLen < s.cursor + 4 * (k + 1)) :
    ∃ n t, n ≤ k + 1 ∧ takeSteps n s = .next t ∧ t.run ≠ .running := by
  induction k generalizing s with
  | zero =>
    have hg : ¬ GroupAtCursor s := fun hg => absurd hg.1 (by omega)
    exact ⟨1, s.exhaust, le_rfl, takeSteps_succ (step_of_no_group hr hg) 0, nofun⟩
  | succ k ih =>
    obtain ⟨u, hu⟩ := exists_step_of_running hr
    by_cases hur : u.run = .running
    · have hcursor : u.cursor = s.cursor + 4 := step_cursor_of_running hu hur
      have hlen : u.streamLen = s.streamLen := (step_stream hu).2
      obtain ⟨n, t, hn, ht, hover⟩ := ih hur (by omega)
      exact ⟨n + 1, t, by omega, (takeSteps_succ hu n).trans ht, hover⟩
    · exact ⟨1, u, by omega, takeSteps_succ hu 0, hur⟩

/-- Settles O25: fewer than 4 characters are left over beside the whole groups that remain. -/
theorem everyRunEnds : Obligations.EveryRunEnds := fun _ hr => exists_end_of_room _ hr (by omega)

/-! ### The result of a run -/

/-- The result of a program is what the host sees in the final state its run reaches within the bound (R178, R180). -/
theorem runProgram_eq_result {text : List Byte} {n : Nat} {t : State} (hn : n ≤ text.length / 4 + 1)
    (h : takeSteps n (State.launch text) = .next t) (ht : t.run ≠ .running) : runProgram text = t.result :=
  congrArg State.result (runSteps_eq_of_takeSteps h ht hn)

theorem State.result_of_halted {s : State} (h : s.run = .halted) :
    s.result = some (.report (s.getReg .r0) (s.getReg .r1) (s.getReg .r2)) := by
  simp [State.result, State.getReg, h]

theorem State.result_of_exhausted {s : State} (h : s.run = .exhausted) : s.result = some .noOutput := by
  simp [State.result, h]

/-- Settles O28: the run ends within the bound, and the result is that of its final state. -/
theorem programResultIsReportOrNothing : Obligations.ProgramResultIsReportOrNothing := by
  intro text
  obtain ⟨n, t, hn, h, hover⟩ := everyRunEnds (State.launch text) rfl
  refine ⟨n, t, hn, h, ?_⟩
  rw [runProgram_eq_result hn h hover]
  cases hr : t.run with
  | running => exact absurd hr hover
  | halted => exact .inl ⟨rfl, State.result_of_halted hr⟩
  | exhausted => exact .inr ⟨rfl, State.result_of_exhausted hr⟩

end Sys2Proof.Machine

/-! The statements about reset (70_reset_and_hazards.md section 1) and about ADD and SUB into register 2
(43_arithmetic.md, decision D7). -/

namespace Sys2Proof.Machine

/-! ### Reset -/

/-- Of the state before it, reset keeps the stream and its length alone. -/
theorem State.applyReset_congr {s t : State} (h : t.stream = s.stream ∧ t.streamLen = s.streamLen) :
    t.applyReset = s.applyReset := by
  obtain ⟨hstream, hlen⟩ := h
  rw [State.applyReset, State.applyReset, hstream, hlen]

/-- Settles O23: the part of the state that reset keeps is the part that no step changes. -/
theorem resetFromAnyState : Obligations.ResetFromAnyState :=
  ⟨fun s => ⟨State.applyReset_getReg s, rfl, rfl, rfl, rfl, rfl⟩, fun _ _ h => State.applyReset_congr (step_stream h)⟩

/-- Settles O24: no run changes the stream of its text, and the launch state is a reset state itself. -/
theorem nothingSurvivesReset : Obligations.NothingSurvivesReset := by
  intro text n t h
  calc t.applyReset = (State.launch text).applyReset := State.applyReset_congr (takeSteps_stream h)
    _ = State.launch text := rfl

/-! ### ADD and SUB into register 2 -/

/-- With destination 2 the two writes change register 2 alone. -/
theorem State.writeBack_r2_frame (s : State) (v : Byte) (flag : Bool) :
    (∀ q, q ≠ .r2 → (s.writeBack .r2 v flag).getReg q = s.getReg q) ∧
      (s.writeBack .r2 v flag).skip = s.skip ∧ (s.writeBack .r2 v flag).run = s.run ∧
      FetchSideSame s (s.writeBack .r2 v flag) := by
  obtain ⟨hothers, hrest⟩ := State.writeBack_frame s .r2 v flag
  exact ⟨fun q hq => hothers q hq hq, hrest⟩

/-- Settles O36: the flag write comes last, so with destination 2 register 2 ends as the flag. -/
theorem arithmeticIntoRegisterTwo : Obligations.ArithmeticIntoRegisterTwo := by
  refine fun y => ⟨⟨decode_xyWord (x := .r2) (by simp) rfl, fun s => ?_⟩,
    ⟨decode_xyWord (x := .r2) (by simp) rfl, fun s => ?_⟩⟩
  · refine ⟨effect (.add .r2 y) s, exec_eq_effect (.add .r2 y) s, ?_, State.writeBack_r2_frame s _ _⟩
    rw [effect, State.writeBack_getReg_r2_toNat, sumCarry_eq]
    simp only [decide_eq_true_eq, ge_iff_le]
  · refine ⟨effect (.sub .r2 y) s, exec_eq_effect (.sub .r2 y) s, ?_, State.writeBack_r2_frame s _ _⟩
    rw [effect, State.writeBack_getReg_r2_toNat, diffBorrow_eq]
    simp only [decide_eq_true_eq]

end Sys2Proof.Machine
